-- ==== Sys2Proof/Word.lean ====
section
/-! DEFINITION. The word types of the engine and its small named sets: bytes, wait operands, bus lines, levels,
directions, transfer modes and fonts. -/

namespace Sys2Proof

/-- Every descriptor register, operand and bus byte is 8 bits wide (R10 "register width", decision D1). -/
abbrev Byte := BitVec 8

/-- The operand of `Wait`, in microseconds (R125, decision D18: 32 bits). -/
abbrev Micros := BitVec 32

/-- The seven bus lines (R41). -/
inductive Line where
  | rs | rw | e | d0 | d1 | d2 | d3
deriving DecidableEq, Repr

/-- The level of a line (R13, R31). -/
inductive Level where
  | low | high
deriving DecidableEq, Repr

/-- The direction of a line (R13, R31). -/
inductive Direction where
  | input | output
deriving DecidableEq, Repr

/-- The mode of a transfer: `command` is RS Low, `data` is RS High (R17, R41). -/
inductive Mode where
  | command | data
deriving DecidableEq, Repr

/-- The two fonts `charsize` can ask for (R87, decision D10). -/
inductive Font where
  | f5x8 | f5x10
deriving DecidableEq, Repr

/-- One value for each of the seven lines: pin numbers, directions or levels. -/
structure Lines (α : Type) where
  rs : α
  rw : α
  e : α
  d0 : α
  d1 : α
  d2 : α
  d3 : α
deriving DecidableEq, Repr

end Sys2Proof
end

