-- ==== Sys2Proof/Config.lean ====
section
/-! DEFINITION. The configuration record `cfg` of rule R10 and the free values (the contents of the platform's Pin Mapping
Table, and the row-table entries the spec does not state). The two widths of R10 are the types `Byte` and `Micros` (log
entry 3). -/

namespace Sys2Proof

/-- The configuration record of R10, fixed for the life of the engine (R20, R30). A field that R10 leaves OPEN has no
default here; a field R10 gives a value has that value as its default. The defaults of the command bases and of the
flag masks are the spec's general-knowledge values (G1 to G4; PRESUMED by the spec itself, log entry 4). -/
structure Cfg where
  /-- `RW_PRESENT`: whether the read/write line exists. -/
  rwPresent : Bool
  /-- `PIN_RS`, `PIN_RW`, `PIN_E`, `PIN_D[0..3]`; `PIN_RW` means nothing when `RW_PRESENT = false`. -/
  pins : Lines Nat
  /-- `PIN_TABLE_SIZE`. -/
  pinTableSize : Nat
  /-- `TICKS_PER_MS`, the reload value of the timing counter. -/
  ticksPerMs : Nat
  /-- `MAX_ROWS`: the entries of `row_offsets` and the cap in the row clamp. -/
  maxRows : Nat := 4
  /-- `ROW_BASE_EVEN`. -/
  rowBaseEven : Byte := 0x00
  /-- `ROW_BASE_ODD`. -/
  rowBaseOdd : Byte := 0x40
  /-- `INIT_COLUMNS`. -/
  initColumns : Byte := 20
  /-- `INIT_LINES`. -/
  initLines : Byte := 4
  /-- `INIT_CHARSIZE`. -/
  initCharsize : Font := .f5x8
  /-- `HS_NIBBLE_A`. -/
  hsNibbleA : Byte := 0x03
  /-- `HS_NIBBLE_B`. -/
  hsNibbleB : Byte := 0x02
  /-- `T_SETUP`. -/
  tSetup : Micros := 1
  /-- `T_HIGH`. -/
  tHigh : Micros := 1
  /-- `T_SETTLE`. -/
  tSettle : Micros := 100
  /-- `T_POWERON`. -/
  tPowerOn : Micros := 50000
  /-- `T_HS1`. -/
  tHs1 : Micros := 4500
  /-- `T_HS2`. -/
  tHs2 : Micros := 4500
  /-- `T_HS3`. -/
  tHs3 : Micros := 150
  /-- `T_CLEAR`. -/
  tClear : Micros := 2000
  /-- `CMD_CLEARDISPLAY`. -/
  cmdClearDisplay : Byte := 0x01
  /-- `CMD_ENTRYMODESET`. -/
  cmdEntryModeSet : Byte := 0x04
  /-- `CMD_DISPLAYCONTROL`. -/
  cmdDisplayControl : Byte := 0x08
  /-- `CMD_FUNCTIONSET`. -/
  cmdFunctionSet : Byte := 0x20
  /-- `CMD_SETDDRAMADDR`. -/
  cmdSetDdramAddr : Byte := 0x80
  /-- `FN_8BIT`. -/
  fn8bit : Byte := 0x10
  /-- `FN_2LINE`. -/
  fn2line : Byte := 0x08
  /-- `FN_5x10`. -/
  fn5x10 : Byte := 0x04
  /-- `CT_DISPLAYON`. -/
  ctDisplayOn : Byte := 0x04
  /-- `CT_CURSORON`. -/
  ctCursorOn : Byte := 0x02
  /-- `CT_BLINKON`. -/
  ctBlinkOn : Byte := 0x01
  /-- `EM_LEFT`. -/
  emLeft : Byte := 0x02
  /-- `EM_SHIFT`. -/
  emShift : Byte := 0x01
deriving DecidableEq, Repr

/-- The configuration that holds R10's value in every field R10 gives one, and `c`'s value in every OPEN field. -/
def Cfg.withSpecValues (c : Cfg) : Cfg :=
  { rwPresent := c.rwPresent, pins := c.pins, pinTableSize := c.pinTableSize, ticksPerMs := c.ticksPerMs }

/-- `c` holds R10's value in every field R10 gives one. -/
abbrev Cfg.HasSpecValues (c : Cfg) : Prop := c = c.withSpecValues

/-- The configuration of `State.reset`. DESIGN CHOICE (log entry 2): R10 leaves these four fields OPEN; the values are
the ones the spec's own vectors use where they use one (`RW_PRESENT = true`, 32 table entries, 72000 ticks), and pins
0 to 6. No statement rests on them. -/
def Cfg.default : Cfg :=
  { rwPresent := true, pins := ⟨0, 1, 2, 3, 4, 5, 6⟩, pinTableSize := 32, ticksPerMs := 72000 }

/-- The logical pins in use, in the order of R105 and R113: RS, RW when it exists, E, D0, D1, D2, D3. -/
def Cfg.pinList (c : Cfg) : List Nat :=
  [c.pins.rs] ++ (if c.rwPresent then [c.pins.rw] else []) ++ [c.pins.e, c.pins.d0, c.pins.d1, c.pins.d2, c.pins.d3]

/-- One entry of the Pin Mapping Table (R121). -/
structure PinEntry where
  port : Nat
  bitMask : Nat
deriving DecidableEq, Repr, Inhabited

/-- The contents of the Pin Mapping Table, which "belong to the platform and are not in the source" (R121, N8): a free
value, with no body (log entry 14). -/
opaque Config.pinEntry : Nat → PinEntry

/-- The row-table entry `begin` fills at an index past 3, of the index and `columns`. `begin` step 2 states four entries
(R28, R87); a `MAX_ROWS` above 4 has more, and their value is a free value, with no body (log entry 17). -/
opaque Config.unstatedRowOffset : Nat → Byte → Byte

/-- What a read finds at an index the row table does not have: a free value, with no body (log entry 17). A table of
`MAX_ROWS` entries is never read there. -/
opaque Config.absentRowOffset : Nat → Byte

end Sys2Proof
end

