-- ==== Sys2Proof/Syntax.lean ====
section
/-! DEFINITION. The operations, requests and bus words of the engine: one constructor of `Instr` per row of
spec/opcode_table.json, and the internal operations (those the request port has no encoding for). -/

namespace Sys2Proof

/-- One constructor per row of spec/opcode_table.json (R74 requests, R75 reserved request, R80 micro-operations, R63 to
R70 bus words). -/
inductive Instr where
  /-- `INIT` (R86). -/
  | init
  /-- `BEGIN` (R87). -/
  | begin (columns lines : Byte) (charsize : Font)
  /-- `SET_CURSOR` (R96). -/
  | setCursor (x y : Byte)
  /-- `DRAW_CHAR` (R97). -/
  | drawChar (x y c : Byte)
  /-- `DRAW_STRING` (R98). -/
  | drawString (s : List Byte)
  /-- `CLEAR` (R99). -/
  | clear
  /-- `ON` (R100). -/
  | on
  /-- `OFF` (R101). -/
  | off
  /-- `RESERVED_REQUEST` (R75): `b` is byte 0 of the request. -/
  | reservedRequest (b : Byte)
  /-- `write_nibble` (R81). -/
  | writeNibble (value : Byte)
  /-- `send` (R82). -/
  | send (value : Byte) (mode : Mode)
  /-- `command` (R83). -/
  | command (value : Byte)
  /-- `HS3` (R63). -/
  | hs3
  /-- `HS2` (R64). -/
  | hs2
  /-- `FUNCTIONSET` (R65): `w` = `FN_8BIT`, `n` = `FN_2LINE`, `f` = `FN_5x10`. -/
  | functionset (w n f : Bool)
  /-- `DISPLAYCONTROL` (R66): `d` = `CT_DISPLAYON`, `c` = `CT_CURSORON`, `b` = `CT_BLINKON`. -/
  | displaycontrol (d c b : Bool)
  /-- `CLEARDISPLAY` (R67). -/
  | cleardisplay
  /-- `ENTRYMODESET` (R68): `i` = `EM_LEFT`, `s` = `EM_SHIFT`. -/
  | entrymodeset (i s : Bool)
  /-- `SETDDRAMADDR` (R69). -/
  | setddramaddr (a : BitVec 7)
  /-- `DATAWRITE` (R70). -/
  | datawrite (c : Byte)
deriving DecidableEq, Repr

/-- What the engine itself hands to its bus protocol and the request port does not accept (R3, R74): a bus word in its
format `BUS5` or `BUS9` (R61, R62), or a micro-operation, which has no binary form. -/
inductive InternalOp where
  | bus5 (w : BitVec 5)
  | bus9 (w : BitVec 9)
  | writeNibble (value : Byte)
  | send (value : Byte) (mode : Mode)
  | command (value : Byte)
deriving DecidableEq, Repr

/-- The written form of an instruction: the bytes of a request (`HREQ`, R73), or an internal operation. -/
inductive Encoded where
  | request (bytes : List Byte)
  | internal (op : InternalOp)
deriving DecidableEq, Repr

end Sys2Proof
end

