-- ==== Sys2Proof/WellFormed.lean ====
section
/-! DEFINITION. When a configuration is well-formed (R11) and when an instruction is (the operands its encoding
admits). -/

namespace Sys2Proof

/-- `m` is a single bit. -/
def singleBit (m : Byte) : Bool := m != 0 && m &&& (m - 1) == 0

/-- The lowest set bit of `m`, 0 when there is none. -/
def lowestBit (m : Byte) : Byte := m &&& (0 - m)

/-- R11 (a): the five command bases are pairwise different bytes. -/
def Cfg.basesDistinct (c : Cfg) : Bool :=
  decide [c.cmdClearDisplay, c.cmdEntryModeSet, c.cmdDisplayControl, c.cmdFunctionSet, c.cmdSetDdramAddr].Nodup

/-- R11 (b) for one register: its masks are single bits, pairwise disjoint. -/
def masksDisjoint (masks : List Byte) : Bool :=
  masks.all singleBit && decide (masks.Pairwise fun a b => a &&& b = 0)

/-- R11 (b). -/
def Cfg.masksSingle (c : Cfg) : Bool :=
  masksDisjoint [c.fn8bit, c.fn2line, c.fn5x10] && masksDisjoint [c.ctDisplayOn, c.ctCursorOn, c.ctBlinkOn] &&
    masksDisjoint [c.emLeft, c.emShift]

/-- R11 (c): every flag mask of a register is strictly below the lowest set bit of that register's command base. -/
def Cfg.masksBelowBases (c : Cfg) : Bool :=
  ([c.fn8bit, c.fn2line, c.fn5x10].all fun m => decide (m < lowestBit c.cmdFunctionSet)) &&
    ([c.ctDisplayOn, c.ctCursorOn, c.ctBlinkOn].all fun m => decide (m < lowestBit c.cmdDisplayControl)) &&
    ([c.emLeft, c.emShift].all fun m => decide (m < lowestBit c.cmdEntryModeSet))

/-- R11 (d): `CMD_SETDDRAMADDR` is the single bit 0x80. -/
def Cfg.ddramBaseIsTopBit (c : Cfg) : Bool := c.cmdSetDdramAddr == 0x80

/-- R11 (e): `TICKS_PER_MS > 0`. -/
def Cfg.ticksPositive (c : Cfg) : Bool := decide (0 < c.ticksPerMs)

/-- R11 (f): the pins in use are pairwise different. -/
def Cfg.pinsDistinct (c : Cfg) : Bool := decide c.pinList.Nodup

/-- R11: a configuration is well-formed. -/
def Cfg.wf (c : Cfg) : Bool :=
  c.basesDistinct && c.masksSingle && c.masksBelowBases && c.ddramBaseIsTopBit && c.ticksPositive && c.pinsDistinct

/-- The operands an instruction's encoding admits: a reserved request has an opcode byte of 0x08 or above (R75), a
string goes with one length byte (R76); every other operand is any value of its type (R75 (c)). -/
def Instr.wf : Instr → Bool
  | .init => true
  | .begin _ _ _ => true
  | .setCursor _ _ => true
  | .drawChar _ _ _ => true
  | .drawString s => decide (s.length ≤ 255)
  | .clear => true
  | .on => true
  | .off => true
  | .reservedRequest b => decide (8 ≤ b.toNat)
  | .writeNibble _ => true
  | .send _ _ => true
  | .command _ => true
  | .hs3 => true
  | .hs2 => true
  | .functionset _ _ _ => true
  | .displaycontrol _ _ _ => true
  | .cleardisplay => true
  | .entrymodeset _ _ => true
  | .setddramaddr _ => true
  | .datawrite _ => true

end Sys2Proof
end

