-- ==== Sys2Proof/Decode.lean ====
section
/-! DEFINITION. The decoders (requests R73 to R76, bus words R61 to R70), total on any bytes and words, and after them the
encoder, written from the same tables. -/

namespace Sys2Proof

/-! ## Decoding -/

/-- What the request decoder reads at the front of the request port. -/
inductive Decoded where
  /-- a whole request, and the bytes after it -/
  | instr (i : Instr) (rest : List Byte)
  /-- a whole request with reserved operand bits set (R75 (b)): byte 0, and the bytes after it -/
  | illegal (b0 : Byte) (rest : List Byte)
  /-- no whole request has arrived yet -/
  | incomplete
deriving DecidableEq, Repr

/-- The operands of `BEGIN` (R74, R75 (b)): `charsize` bit 0 is the font, bits 7:1 must be 0. -/
def decodeBegin : List Byte → Decoded
  | columns :: lines :: charsize :: rest =>
    if charsize = 0x00 then .instr (.begin columns lines .f5x8) rest
    else if charsize = 0x01 then .instr (.begin columns lines .f5x10) rest
    else .illegal 0x01 rest
  | _ => .incomplete

/-- The operands of `SET_CURSOR` (R74). -/
def decodeSetCursor : List Byte → Decoded
  | x :: y :: rest => .instr (.setCursor x y) rest
  | _ => .incomplete

/-- The operands of `DRAW_CHAR` (R74). -/
def decodeDrawChar : List Byte → Decoded
  | x :: y :: c :: rest => .instr (.drawChar x y c) rest
  | _ => .incomplete

/-- The operands of `DRAW_STRING` (R74, R76): a length byte, then that many characters. -/
def decodeDrawString : List Byte → Decoded
  | n :: cs => if n.toNat ≤ cs.length then .instr (.drawString (cs.take n.toNat)) (cs.drop n.toNat) else .incomplete
  | [] => .incomplete

/-- The request decoder: byte 0 selects the operation (R74); 0x08 to 0xFF are reserved (R75 (a)). -/
def decodeRequest : List Byte → Decoded
  | [] => .incomplete
  | b :: bs =>
    if b = 0x00 then .instr .init bs
    else if b = 0x01 then decodeBegin bs
    else if b = 0x02 then decodeSetCursor bs
    else if b = 0x03 then decodeDrawChar bs
    else if b = 0x04 then decodeDrawString bs
    else if b = 0x05 then .instr .clear bs
    else if b = 0x06 then .instr .on bs
    else if b = 0x07 then .instr .off bs
    else .instr (.reservedRequest b) bs

/-- The `BUS5` words the engine emits (R61, R63, R64). -/
def decodeBus5 (w : BitVec 5) : Option Instr :=
  if w = 0b00011#5 then some .hs3 else if w = 0b00010#5 then some .hs2 else none

/-- The `BUS9` words the engine emits (R62, R65 to R70), each by the match and mask of its row. -/
def decodeBus9 (w : BitVec 9) : Option Instr :=
  if w &&& 0x100 = 0x100 then some (.datawrite (w.extractLsb' 0 8))
  else if w &&& 0x180 = 0x080 then some (.setddramaddr (w.extractLsb' 0 7))
  else if w &&& 0x1E3 = 0x020 then some (.functionset (w.getLsbD 4) (w.getLsbD 3) (w.getLsbD 2))
  else if w &&& 0x1F8 = 0x008 then some (.displaycontrol (w.getLsbD 2) (w.getLsbD 1) (w.getLsbD 0))
  else if w &&& 0x1FC = 0x004 then some (.entrymodeset (w.getLsbD 1) (w.getLsbD 0))
  else if w = 0x001 then some .cleardisplay
  else none

/-- The instruction an internal operation is; `none` for a bus word that is none of the eight of R72. -/
def decodeInternal : InternalOp → Option Instr
  | .bus5 w => decodeBus5 w
  | .bus9 w => decodeBus9 w
  | .writeNibble value => some (.writeNibble value)
  | .send value mode => some (.send value mode)
  | .command value => some (.command value)

/-! ## Encoding -/

/-- The `charsize` byte (R75 (b), decision D10). -/
def encodeFont : Font → Byte
  | .f5x8 => 0x00
  | .f5x10 => 0x01

/-- A bit as a `BUS9` word with that bit at position `k`. -/
def bitAt (k : Nat) (b : Bool) : BitVec 9 := if b then 1#9 <<< k else 0#9

/-- The written form of an instruction: request bytes (R74) or bus word (R63 to R70); a micro-operation stands for
itself, since it has no encoding (R74). -/
def encode : Instr → Encoded
  | .init => .request [0x00]
  | .begin columns lines charsize => .request [0x01, columns, lines, encodeFont charsize]
  | .setCursor x y => .request [0x02, x, y]
  | .drawChar x y c => .request [0x03, x, y, c]
  | .drawString s => .request (0x04 :: BitVec.ofNat 8 s.length :: s)
  | .clear => .request [0x05]
  | .on => .request [0x06]
  | .off => .request [0x07]
  | .reservedRequest b => .request [b]
  | .writeNibble value => .internal (.writeNibble value)
  | .send value mode => .internal (.send value mode)
  | .command value => .internal (.command value)
  | .hs3 => .internal (.bus5 0b00011)
  | .hs2 => .internal (.bus5 0b00010)
  | .functionset w n f => .internal (.bus9 (0x020 ||| bitAt 4 w ||| bitAt 3 n ||| bitAt 2 f))
  | .displaycontrol d c b => .internal (.bus9 (0x008 ||| bitAt 2 d ||| bitAt 1 c ||| bitAt 0 b))
  | .cleardisplay => .internal (.bus9 0x001)
  | .entrymodeset i s => .internal (.bus9 (0x004 ||| bitAt 1 i ||| bitAt 0 s))
  | .setddramaddr a => .internal (.bus9 (0x080 ||| a.zeroExtend 9))
  | .datawrite c => .internal (.bus9 (0x100 ||| c.zeroExtend 9))

/-! ## Words as spec/opcode_table.json numbers them -/

/-- The bytes of `w`, least significant first. -/
def wordBytes : Nat → Nat → List Byte
  | 0, _ => []
  | k + 1, w => BitVec.ofNat 8 w :: wordBytes k (w / 256)

/-- The longest request: `DRAW_STRING` with 255 characters (R76). -/
abbrev longestRequest : Nat := 257

/-- Which format a table word is in. The table's three formats share numbers, so the width decides (log entry 9):
fewer than 8 bits is `BUS5`, 9 to 16 bits holding one of the engine's nine-bit words is `BUS9`, everything else is a
request, followed by operand bytes of zeros. -/
def tableForm (nbits w : Nat) : Encoded :=
  if nbits < 8 then .internal (.bus5 (BitVec.ofNat 5 w))
  else if 8 < nbits ∧ nbits ≤ 16 ∧ w < 512 ∧ (decodeBus9 (BitVec.ofNat 9 w)).isSome then
    .internal (.bus9 (BitVec.ofNat 9 w))
  else .request (wordBytes (nbits / 8) w ++ List.replicate longestRequest 0)

/-- The instruction the decoder reads from a table word. -/
def decodeTableWord (nbits w : Nat) : Option Instr :=
  match tableForm nbits w with
  | .internal op => decodeInternal op
  | .request bytes =>
    match decodeRequest bytes with
    | .instr i _ => some i
    | .illegal _ _ => none
    | .incomplete => none

end Sys2Proof
end

