-- ==== Sys2Proof/Machine/State.lean ====
section
/-! DEFINITION. The state of the engine (R20), its outputs (event trace and error port) and its inputs (request port and
internal operations), as plain data; the reasons a step can stop; the state after reset (R36, R136). -/

namespace Sys2Proof.Machine

/-- The five values of `fsm_state`, in order (R23). -/
inductive FsmState where
  | uninitialized | poweringUp | fourBitHandshake | configured | ready
deriving DecidableEq, Repr

/-- An event of the trace (R13, R14). -/
inductive Event where
  /-- `Dir(line, mode)` -/
  | dir (line : Line) (mode : Direction)
  /-- `Drive(line, level)` -/
  | drive (line : Line) (level : Level)
  /-- `Wait(n)`, a lower bound in microseconds (R140) -/
  | wait (n : Micros)
deriving DecidableEq, Repr

/-- What the error port reports when a request has ended (R105). -/
inductive Report where
  /-- code 0: the operation completed -/
  | completed
  /-- code 1, with the offending logical pin -/
  | invalidPin (pin : Nat)
  /-- code 2 -/
  | notInitialized
  /-- code 3, with byte 0 of the request -/
  | illegalRequest (b0 : Byte)
deriving DecidableEq, Repr

/-- Reasons for a fault. There are none: an error of this engine ends its request and is reported on the error port, and
the engine takes the next request (R108, R114), so it is a next state; no rule stops the engine. -/
inductive Fault where
deriving DecidableEq, Repr

/-- Reasons for a refusal: the request has no meaning in the spec. All are safe: the model stops where the hardware may
go on. -/
inductive Refusal where
  /-- An arm of `exec` that has no meaning yet; no arm of this model answers it. Safe. -/
  | notModelled (mnemonic : String)
  /-- R110 (a): `begin` or `init` when `fsm_state` is not `Uninitialized`. Raised by `execBegin` and `execInit`. Safe. -/
  | secondBegin
  /-- R110 (b): `set_cursor` or `draw_char` when no row is in range: `line_count = 0`, or `MAX_ROWS = 0` (log entry
  17). Raised by `execSetCursor` and `execDrawChar`. Safe. -/
  | emptyRowRange
  /-- R110 (c): anything but an illegal request, under a configuration that fails R11. Raised by every meaning but that
  of the reserved request. Safe. -/
  | illFormedConfig
  /-- R72: an internal bus word that is none of the eight the engine emits. Raised by `step`. Safe. -/
  | notAnEngineWord
deriving DecidableEq, Repr

/-- The state. The first group is R20's tuple, the whole state of the engine. `cfg` is a parameter fixed for life (R20,
R36 lists it). `trace` is the output (R14), `reports` what the error port has reported, one per request (R105).
`requests` and `internalOps` are the model's own fields for inputs (log entries 7 and 8). -/
structure State where
  /-- the configuration, never written (R30) -/
  cfg : Cfg
  /-- `fsm_state` (R23) -/
  fsmState : FsmState
  /-- `initialized` (R24) -/
  initialized : Bool
  /-- `function_bits` (R25) -/
  functionBits : Byte
  /-- `control_bits` (R26) -/
  controlBits : Byte
  /-- `entry_mode_bits` (R27) -/
  entryModeBits : Byte
  /-- `row_offsets`, `MAX_ROWS` entries, 4 on this hardware (R10, R28); that it has so many is an invariant -/
  rowOffsets : List Byte
  /-- `line_count` (R29) -/
  lineCount : Byte
  /-- `dir[l]` (R31); the entry of RW means nothing when the line does not exist -/
  dir : Lines Direction
  /-- `level[l]` (R31); the entry of RW means nothing when the line does not exist -/
  level : Lines Level
  /-- the events emitted from reset on, oldest first (R14) -/
  trace : List Event
  /-- the error port's reports from reset on, one per request that has ended, oldest first (R105) -/
  reports : List Report
  /-- the bytes on the request port that the engine has not taken yet, oldest first (R73) -/
  requests : List Byte
  /-- internal operations placed from outside; the engine itself never puts one here (log entry 8) -/
  internalOps : List InternalOp
deriving DecidableEq, Repr

/-- The state right after reset, for a configuration (R36, R136). `fsmState`, `initialized` and `functionBits` are the
spec's. The spec gives no value to the other registers and to the lines; zero, Input and Low are a DESIGN CHOICE (log
entries 5 and 6). No event has been emitted and no request has ended (R136). -/
def State.resetWith (cfg : Cfg) : State :=
  { cfg := cfg
    fsmState := .uninitialized
    initialized := false
    functionBits := 0x00
    controlBits := 0x00
    entryModeBits := 0x00
    rowOffsets := List.replicate cfg.maxRows 0x00
    lineCount := 0x00
    dir := ⟨.input, .input, .input, .input, .input, .input, .input⟩
    level := ⟨.low, .low, .low, .low, .low, .low, .low⟩
    trace := []
    reports := []
    requests := []
    internalOps := [] }

/-- The state right after reset, with the configuration of log entry 2. -/
def State.reset : State := State.resetWith Cfg.default

end Sys2Proof.Machine
end

