-- ==== Sys2Proof/Machine/Lines.lean ====
section
/-! DEFINITION. Reading and writing one of the seven lines. -/

namespace Sys2Proof

/-- The value of one line. -/
def Lines.get {α : Type} (v : Lines α) : Line → α
  | .rs => v.rs
  | .rw => v.rw
  | .e => v.e
  | .d0 => v.d0
  | .d1 => v.d1
  | .d2 => v.d2
  | .d3 => v.d3

/-- Set one line, leave the others. -/
def Lines.set {α : Type} (v : Lines α) (l : Line) (a : α) : Lines α :=
  match l with
  | .rs => { v with rs := a }
  | .rw => { v with rw := a }
  | .e => { v with e := a }
  | .d0 => { v with d0 := a }
  | .d1 => { v with d1 := a }
  | .d2 => { v with d2 := a }
  | .d3 => { v with d3 := a }

/-- Whether the line exists: RW only when `RW_PRESENT` (R31, R41). -/
def Cfg.hasLine (c : Cfg) (l : Line) : Bool := l != .rw || c.rwPresent

namespace Machine

/-- `dir[l]`, nothing for a line that does not exist (R31). -/
def State.dirOf (s : State) (l : Line) : Option Direction := if s.cfg.hasLine l then some (s.dir.get l) else none

/-- `level[l]`, nothing for a line that does not exist (R31). -/
def State.levelOf (s : State) (l : Line) : Option Level := if s.cfg.hasLine l then some (s.level.get l) else none

end Machine

end Sys2Proof
end

