-- ==== Sys2Proof/Machine/Operands.lean ====
section
/-! DEFINITION. Operand forms and arithmetic: polarity (R42), nibbles (R44, R71), the row clamp and the DDRAM operand
(R96, R102), and the assembly of every emitted byte (R71). -/

namespace Sys2Proof.Machine

/-- `lvl(b)` (R13, R42): 1 is High, 0 is Low. -/
def lvl (b : Bool) : Level := if b then .high else .low

/-- The RS level of a mode (R41): Command is Low, Data is High. -/
def modeLevel : Mode → Level
  | .command => .low
  | .data => .high

/-- `v[7:4]` (R71: `v >> 4`). -/
def highNibble (v : Byte) : Byte := v >>> 4

/-- `v[3:0]` (R71). -/
def lowNibble (v : Byte) : Byte := v &&& 0x0F

/-- `mask` when the bit is 1, no bit otherwise. -/
def flagMask (mask : Byte) (b : Bool) : Byte := if b then mask else 0x00

/-- `min(MAX_ROWS, line_count)`, the number of rows the clamp of R96 leaves in range. -/
def usableRows (c : Cfg) (lineCount : Byte) : Nat := min c.maxRows lineCount.toNat

/-- The last row in range (R96). The subtraction is only used with a row in range (R102). -/
def topRow (c : Cfg) (lineCount : Byte) : Nat := usableRows c lineCount - 1

/-- The clamped row `y'` of R96. -/
def clampRow (c : Cfg) (lineCount y : Byte) : Nat := min y.toNat (topRow c lineCount)

/-- `row_offsets[row]`. -/
def State.rowOffset (s : State) (row : Nat) : Byte := (s.rowOffsets[row]?).getD (Config.absentRowOffset row)

/-- The DDRAM operand `(x + row_offsets[y']) mod 256` (R53, R96, R103). -/
def ddramOperand (s : State) (x y : Byte) : Byte := x + s.rowOffset (clampRow s.cfg s.lineCount y)

/-- The entry `begin` step 2 fills for one row, sums modulo 256 (R28, R53, R87). -/
def rowOffsetFor (c : Cfg) (columns : Byte) : Nat → Byte
  | 0 => c.rowBaseEven
  | 1 => c.rowBaseOdd
  | 2 => c.rowBaseEven + columns
  | 3 => c.rowBaseOdd + columns
  | row + 4 => Config.unstatedRowOffset (row + 4) columns

/-- `row_offsets` as `begin` step 2 fills it: `MAX_ROWS` entries (R10, R28). -/
def rowOffsetsFor (c : Cfg) (columns : Byte) : List Byte := (List.range c.maxRows).map (rowOffsetFor c columns)

/-! The emitted bytes, `base | bits` (R71). -/

/-- `FUNCTIONSET` (R65). -/
def functionSetByte (c : Cfg) (bits : Byte) : Byte := c.cmdFunctionSet ||| bits

/-- `DISPLAYCONTROL` (R66). -/
def displayControlByte (c : Cfg) (bits : Byte) : Byte := c.cmdDisplayControl ||| bits

/-- `ENTRYMODESET` (R68). -/
def entryModeSetByte (c : Cfg) (bits : Byte) : Byte := c.cmdEntryModeSet ||| bits

/-- `SETDDRAMADDR` (R69). -/
def setDdramAddrByte (c : Cfg) (a : Byte) : Byte := c.cmdSetDdramAddr ||| a

/-- The `function_bits` a `FUNCTIONSET` word's fields name (R65). -/
def functionFields (c : Cfg) (w n f : Bool) : Byte :=
  flagMask c.fn8bit w ||| flagMask c.fn2line n ||| flagMask c.fn5x10 f

/-- The `control_bits` a `DISPLAYCONTROL` word's fields name (R66). -/
def controlFields (c : Cfg) (d cu b : Bool) : Byte :=
  flagMask c.ctDisplayOn d ||| flagMask c.ctCursorOn cu ||| flagMask c.ctBlinkOn b

/-- The `entry_mode_bits` an `ENTRYMODESET` word's fields name (R68). -/
def entryModeFields (c : Cfg) (i s : Bool) : Byte := flagMask c.emLeft i ||| flagMask c.emShift s

end Sys2Proof.Machine
end

