-- ==== Sys2Proof/Machine/Flags.lean ====
section
/-! DEFINITION. Every computation of a flag bit: the bits of `function_bits`, `control_bits` and `entry_mode_bits` and the
flag `initialized` (R24 to R27). The engine has no condition codes (R24). -/

namespace Sys2Proof.Machine

/-- `begin` step 1 (R25, R87): `FN_2LINE` is set when `lines > 1`. -/
def withTwoLineBit (c : Cfg) (lines bits : Byte) : Byte :=
  if 1 < lines.toNat then bits ||| c.fn2line else bits

/-- `begin` step 3 (R25, R87): `FN_5x10` is set when the taller font is asked and `lines = 1`. -/
def withFontBit (c : Cfg) (lines : Byte) (charsize : Font) (bits : Byte) : Byte :=
  if charsize = .f5x10 ∧ lines.toNat = 1 then bits ||| c.fn5x10 else bits

/-- `begin` step 8 (R26): display on, cursor off, blink off. -/
def initialControlBits (c : Cfg) : Byte := c.ctDisplayOn

/-- `on` (R100). -/
def withDisplayOn (c : Cfg) (bits : Byte) : Byte := bits ||| c.ctDisplayOn

/-- `off` (R101). -/
def withDisplayOff (c : Cfg) (bits : Byte) : Byte := bits &&& ~~~c.ctDisplayOn

/-- `begin` step 10 (R27): left to right, no auto-shift. -/
def initialEntryModeBits (c : Cfg) : Byte := c.emLeft

/-- `begin` step 11 (R24, R87): `fsm_state <- Ready` and `initialized <- true`. -/
def State.becomeReady (s : State) : State := { s with fsmState := .ready, initialized := true }

end Sys2Proof.Machine
end

