-- ==== Sys2Proof/Machine/Ops.lean ====
section
/-! DEFINITION. The shared operations: emitting events (R13), the micro-operations (R80 to R83), reporting on the error
port and raising an error (R105, R108), and the admission checks (R95, R107, R110, R113). -/

namespace Sys2Proof.Machine

/-! ## Events -/

/-- The directions after an event: `Dir(line, mode)` sets `dir[line]` (R13). -/
def Event.onDir : Event → Lines Direction → Lines Direction
  | .dir l d, v => v.set l d
  | .drive _ _, v => v
  | .wait _, v => v

/-- The levels after an event: `Drive(line, level)` sets `level[line]` (R13). -/
def Event.onLevel : Event → Lines Level → Lines Level
  | .dir _ _, v => v
  | .drive l a, v => v.set l a
  | .wait _, v => v

/-- Emit one event: it goes to the end of the trace and takes effect on its line before the next begins (R55). -/
def State.emit (s : State) (e : Event) : State :=
  { s with dir := e.onDir s.dir, level := e.onLevel s.level, trace := s.trace ++ [e] }

/-- Emit events in the order written (R55). -/
def State.emitAll (s : State) (es : List Event) : State := es.foldl State.emit s

/-- The directions after a list of events, in order. -/
def dirsAfter (es : List Event) (v : Lines Direction) : Lines Direction := es.foldl (fun v e => e.onDir v) v

/-- The levels after a list of events, in order. -/
def levelsAfter (es : List Event) (v : Lines Level) : Lines Level := es.foldl (fun v e => e.onLevel v) v

/-- `Dir(RW, Output)` or `Drive(RW, Low)`, only when the line exists (R82, R87). -/
def ifRw (c : Cfg) (e : Event) : List Event := if c.rwPresent then [e] else []

/-! ## Micro-operations -/

/-- The pulse that ends every `write_nibble`, with its three waits (R81). -/
def pulseEvents (c : Cfg) : List Event :=
  [.drive .e .low, .wait c.tSetup, .drive .e .high, .wait c.tHigh, .drive .e .low, .wait c.tSettle]

/-- The ten events of `write_nibble` (R81): only `value[3:0]` is used, bit `i` on `Di` (R43), D0 first (D9). -/
def nibbleEvents (c : Cfg) (value : Byte) : List Event :=
  ([.drive .d0 (lvl (value.getLsbD 0)), .drive .d1 (lvl (value.getLsbD 1)), .drive .d2 (lvl (value.getLsbD 2)),
    .drive .d3 (lvl (value.getLsbD 3))] : List Event) ++ pulseEvents c

/-- `write_nibble(value)` (R81). -/
def writeNibble (value : Byte) (s : State) : State := s.emitAll (nibbleEvents s.cfg value)

/-- The line settings that begin a `send` (R82): RS to the mode, RW Low when it exists. -/
def selectMode (mode : Mode) (s : State) : State :=
  s.emitAll (.drive .rs (modeLevel mode) :: ifRw s.cfg (.drive .rw .low))

/-- `send(value, mode)` (R82): the high nibble first (R44). -/
def send (value : Byte) (mode : Mode) (s : State) : State :=
  writeNibble (lowNibble value) (writeNibble (highNibble value) (selectMode mode s))

/-- `command(value)` (R83). -/
def command (value : Byte) (s : State) : State := send value .command s

/-- `Wait(n)` (R13). -/
def wait (n : Micros) (s : State) : State := s.emit (.wait n)

/-- The body of `clear` (R99), also step 9 of `begin`: the command, then its own separate wait. -/
def clearBody (s : State) : State := wait s.cfg.tClear (command s.cfg.cmdClearDisplay s)

/-- The body of `set_cursor` (R96), without its admission; `draw_char` uses it too (R97). -/
def setCursorBody (x y : Byte) (s : State) : State := command (setDdramAddrByte s.cfg (ddramOperand s x y)) s

/-! ## The error port -/

/-- The numeric code of a report (R105). -/
def Report.code : Report → Nat
  | .completed => 0
  | .invalidPin _ => 1
  | .notInitialized => 2
  | .illegalRequest _ => 3

/-- One report on the error port; nothing else changes. -/
def State.report (s : State) (r : Report) : State := { s with reports := s.reports ++ [r] }

/-- A request ends with its operation completed (R105, code 0). -/
def complete (s : State) : Host.Outcome State Fault Refusal := .next (s.report .completed)

/-- `raise` (R108, R114): the request ends at once, with no event and no change of state, and the error goes to the
error port; the engine then takes the next request. -/
def raise (error : Report) (s : State) : Host.Outcome State Fault Refusal := .next (s.report error)

/-! ## Admission -/

/-- Every rule has a well-formed configuration as its premise (R11, D22); anything else is refused (R110 (c)). -/
def underWfConfig (s : State) (body : State → Host.Outcome State Fault Refusal) : Host.Outcome State Fault Refusal :=
  if s.cfg.wf then body s else .refused .illFormedConfig

/-- The first pin in use that is not below `PIN_TABLE_SIZE`, in the order RS, RW, E, D0 to D3 (R105, R107, R113). -/
def firstInvalidPin (c : Cfg) : Option Nat := c.pinList.find? fun p => decide (c.pinTableSize ≤ p)

/-- The admission of `begin` and `init` (R87, R113): the `SecondBegin` refusal, then `InvalidPin`. -/
def admitBegin (s : State) (body : State → State) : Host.Outcome State Fault Refusal :=
  underWfConfig s fun s =>
    if s.fsmState = .uninitialized then
      match firstInvalidPin s.cfg with
      | some pin => raise (.invalidPin pin) s
      | none => complete (body s)
    else .refused .secondBegin

/-- The admission of the six operating commands (R95, R106, R113), made once per request. -/
def whenInitialized (s : State) (body : State → Host.Outcome State Fault Refusal) : Host.Outcome State Fault Refusal :=
  underWfConfig s fun s => if s.initialized then body s else raise .notInitialized s

/-- The further admission of `set_cursor` and `draw_char` (R96, R110 (b)): the clamp interval is not empty. -/
def whenRowsExist (s : State) (body : State → State) : Host.Outcome State Fault Refusal :=
  if usableRows s.cfg s.lineCount = 0 then .refused .emptyRowRange else complete (body s)

end Sys2Proof.Machine
end

