-- ==== Sys2Proof/Machine/Internal.lean ====
section
/-! DEFINITION. The meanings of the micro-operations (R80 to R83) and of the bus words (R63 to R70). None is a request, so
none reports on the error port (R105), and none checks `initialized` (R80). -/

namespace Sys2Proof.Machine

/-- An internal operation ends; the error port speaks of requests only. -/
def internally (s : State) (body : State → State) : Host.Outcome State Fault Refusal :=
  underWfConfig s fun s => .next (body s)

/-- `write_nibble(value)` (R81). -/
def execWriteNibble (value : Byte) (s : State) : Host.Outcome State Fault Refusal := internally s (writeNibble value)

/-- `send(value, mode)` (R82). -/
def execSend (value : Byte) (mode : Mode) (s : State) : Host.Outcome State Fault Refusal :=
  internally s (send value mode)

/-- `command(value)` (R83). -/
def execCommand (value : Byte) (s : State) : Host.Outcome State Fault Refusal := internally s (command value)

/-- `HS3` (R63): the raw nibble 0x3, as `begin` step 6 emits it: RS keeps the level it has, Low there (R87 (f); log
entry 10). -/
def execHs3 (s : State) : Host.Outcome State Fault Refusal := internally s (writeNibble s.cfg.hsNibbleA)

/-- `HS2` (R64): the raw nibble 0x2, likewise. -/
def execHs2 (s : State) : Host.Outcome State Fault Refusal := internally s (writeNibble s.cfg.hsNibbleB)

/-- `FUNCTIONSET` (R65). -/
def execFunctionset (w n f : Bool) (s : State) : Host.Outcome State Fault Refusal :=
  internally s (command (functionSetByte s.cfg (functionFields s.cfg w n f)))

/-- `DISPLAYCONTROL` (R66). -/
def execDisplaycontrol (d c b : Bool) (s : State) : Host.Outcome State Fault Refusal :=
  internally s (command (displayControlByte s.cfg (controlFields s.cfg d c b)))

/-- `CLEARDISPLAY` (R67): "Always followed by Wait(2000)". -/
def execCleardisplay (s : State) : Host.Outcome State Fault Refusal := internally s clearBody

/-- `ENTRYMODESET` (R68). -/
def execEntrymodeset (left shift : Bool) (s : State) : Host.Outcome State Fault Refusal :=
  internally s (command (entryModeSetByte s.cfg (entryModeFields s.cfg left shift)))

/-- `SETDDRAMADDR` (R69). -/
def execSetddramaddr (a : BitVec 7) (s : State) : Host.Outcome State Fault Refusal :=
  internally s (command (setDdramAddrByte s.cfg (a.zeroExtend 8)))

/-- `DATAWRITE` (R70). -/
def execDatawrite (c : Byte) (s : State) : Host.Outcome State Fault Refusal := internally s (send c .data)

end Sys2Proof.Machine
end

