-- ==== Sys2Proof/Machine/Operating.lean ====
section
/-! DEFINITION. The meanings of the six operating commands (R95 to R101). -/

namespace Sys2Proof.Machine

/-- `set_cursor(x, y)` (R96). -/
def execSetCursor (x y : Byte) (s : State) : Host.Outcome State Fault Refusal :=
  whenInitialized s fun s => whenRowsExist s (setCursorBody x y)

/-- `draw_char(x, y, c)` (R97). -/
def execDrawChar (x y c : Byte) (s : State) : Host.Outcome State Fault Refusal :=
  whenInitialized s fun s => whenRowsExist s fun s => send c .data (setCursorBody x y s)

/-- The body of `draw_string` (R98): every character in order. -/
def drawStringBody : List Byte → State → State
  | [], s => s
  | c :: cs, s => drawStringBody cs (send c .data s)

/-- `draw_string(s)` (R98). -/
def execDrawString (cs : List Byte) (s : State) : Host.Outcome State Fault Refusal :=
  whenInitialized s fun s => complete (drawStringBody cs s)

/-- `clear()` (R99). -/
def execClear (s : State) : Host.Outcome State Fault Refusal :=
  whenInitialized s fun s => complete (clearBody s)

/-- Send `DISPLAYCONTROL | control_bits` with the register as it stands (R100, R101). -/
def reissueDisplayControl (s : State) : State := command (displayControlByte s.cfg s.controlBits) s

/-- `on()` (R100). -/
def execOn (s : State) : Host.Outcome State Fault Refusal :=
  whenInitialized s fun s =>
    complete (reissueDisplayControl { s with controlBits := withDisplayOn s.cfg s.controlBits })

/-- `off()` (R101). -/
def execOff (s : State) : Host.Outcome State Fault Refusal :=
  whenInitialized s fun s =>
    complete (reissueDisplayControl { s with controlBits := withDisplayOff s.cfg s.controlBits })

end Sys2Proof.Machine
end

