-- ==== Sys2Proof/Machine/Requests.lean ====
section
/-! DEFINITION. The meanings of `begin` and `init` (R85 to R89), step by step, and of the reserved requests (R75, R109). -/

namespace Sys2Proof.Machine

/-- A move of `fsm_state` (R13, R88). -/
def moveTo (f : FsmState) (s : State) : State := { s with fsmState := f }

/-- Step 1: the 2-line bit. -/
def beginStep1 (lines : Byte) (s : State) : State :=
  { s with functionBits := withTwoLineBit s.cfg lines s.functionBits }

/-- Step 1b: `line_count` (D5). -/
def beginStep1b (lines : Byte) (s : State) : State := { s with lineCount := lines }

/-- Step 2: `row_offsets`. -/
def beginStep2 (columns : Byte) (s : State) : State := { s with rowOffsets := rowOffsetsFor s.cfg columns }

/-- Step 3: the font bit. -/
def beginStep3 (lines : Byte) (charsize : Font) (s : State) : State :=
  { s with functionBits := withFontBit s.cfg lines charsize s.functionBits }

/-- Step 4: every line an output, in the order RS, RW, E, D0 to D3 (D6, D7). -/
def beginStep4 (s : State) : State :=
  s.emitAll (([.dir .rs .output] : List Event) ++ ifRw s.cfg (.dir .rw .output) ++
    ([.dir .e .output, .dir .d0 .output, .dir .d1 .output, .dir .d2 .output, .dir .d3 .output] : List Event))

/-- Step 5: the control lines Low, then the power-on wait (D7). -/
def beginStep5 (s : State) : State :=
  s.emitAll (([.drive .rs .low] : List Event) ++ ifRw s.cfg (.drive .rw .low) ++
    ([.drive .e .low, .wait s.cfg.tPowerOn] : List Event))

/-- One nibble of the handshake and the wait after it (R87 (g)). -/
def handshakeNibble (value : Byte) (after : Micros) (s : State) : State := wait after (writeNibble value s)

/-- Step 6: three nibbles 0x3 with their waits, then the nibble 0x2. RS and RW are not driven again (R87 (f)). -/
def beginStep6 (s : State) : State :=
  s |> handshakeNibble s.cfg.hsNibbleA s.cfg.tHs1
    |> handshakeNibble s.cfg.hsNibbleA s.cfg.tHs2
    |> handshakeNibble s.cfg.hsNibbleA s.cfg.tHs3
    |> writeNibble s.cfg.hsNibbleB

/-- Step 7: `FUNCTIONSET | function_bits`. -/
def beginStep7 (s : State) : State := command (functionSetByte s.cfg s.functionBits) s

/-- Step 8: `control_bits`, then `DISPLAYCONTROL | control_bits`. -/
def beginStep8 (s : State) : State :=
  let s := { s with controlBits := initialControlBits s.cfg }
  command (displayControlByte s.cfg s.controlBits) s

/-- Step 9: clear. -/
def beginStep9 (s : State) : State := clearBody s

/-- Step 10: `entry_mode_bits`, then `ENTRYMODESET | entry_mode_bits`. -/
def beginStep10 (s : State) : State :=
  let s := { s with entryModeBits := initialEntryModeBits s.cfg }
  command (entryModeSetByte s.cfg s.entryModeBits) s

/-- The body of `begin`: steps 1 to 11 with the moves of `fsm_state` where D17 places them (R87, R88). -/
def beginBody (columns lines : Byte) (charsize : Font) (s : State) : State :=
  s |> beginStep1 lines |> beginStep1b lines |> beginStep2 columns |> beginStep3 lines charsize
    |> moveTo .poweringUp |> beginStep4 |> beginStep5
    |> moveTo .fourBitHandshake |> beginStep6
    |> moveTo .configured |> beginStep7 |> beginStep8 |> beginStep9 |> beginStep10
    |> State.becomeReady

/-- `begin(columns, lines, charsize)` (R87). -/
def execBegin (columns lines : Byte) (charsize : Font) (s : State) : Host.Outcome State Fault Refusal :=
  admitBegin s (beginBody columns lines charsize)

/-- `init()` (R86): `begin(20, 4, 5x8)` on the configured pins. -/
def execInit (s : State) : Host.Outcome State Fault Refusal :=
  admitBegin s (beginBody s.cfg.initColumns s.cfg.initLines s.cfg.initCharsize)

/-- A reserved request (R75 (a), R109): `IllegalRequest(byte0)`, checked before anything else. -/
def execReservedRequest (b : Byte) (s : State) : Host.Outcome State Fault Refusal := raise (.illegalRequest b) s

end Sys2Proof.Machine
end

