-- ==== Sys2Proof/Machine/Dispatch.lean ====
section
/-! DEFINITION. The dispatch of an instruction to its meaning, one arm per row of spec/opcode_table.json. -/

namespace Sys2Proof.Machine

def exec (i : Instr) (s : State) : Host.Outcome State Fault Refusal :=
  match i with
  -- requests (R74, R75)
  | .init => Sys2Proof.Machine.execInit s
  | .begin columns lines charsize => Sys2Proof.Machine.execBegin columns lines charsize s
  | .setCursor x y => Sys2Proof.Machine.execSetCursor x y s
  | .drawChar x y c => Sys2Proof.Machine.execDrawChar x y c s
  | .drawString cs => Sys2Proof.Machine.execDrawString cs s
  | .clear => Sys2Proof.Machine.execClear s
  | .on => Sys2Proof.Machine.execOn s
  | .off => Sys2Proof.Machine.execOff s
  | .reservedRequest b => Sys2Proof.Machine.execReservedRequest b s
  -- micro-operations (R80 to R83)
  | .writeNibble value => Sys2Proof.Machine.execWriteNibble value s
  | .send value mode => Sys2Proof.Machine.execSend value mode s
  | .command value => Sys2Proof.Machine.execCommand value s
  -- bus words (R63 to R70)
  | .hs3 => Sys2Proof.Machine.execHs3 s
  | .hs2 => Sys2Proof.Machine.execHs2 s
  | .functionset w n f => Sys2Proof.Machine.execFunctionset w n f s
  | .displaycontrol d c b => Sys2Proof.Machine.execDisplaycontrol d c b s
  | .cleardisplay => Sys2Proof.Machine.execCleardisplay s
  | .entrymodeset left shift => Sys2Proof.Machine.execEntrymodeset left shift s
  | .setddramaddr a => Sys2Proof.Machine.execSetddramaddr a s
  | .datawrite c => Sys2Proof.Machine.execDatawrite c s

end Sys2Proof.Machine
end

