-- ==== Sys2Proof/Machine/Fetch.lean ====
section
/-! DEFINITION. Taking the next thing to run: an internal operation that was placed, else a whole request from the request
port (R21, R73). -/

namespace Sys2Proof.Machine

/-- What the engine takes next; the state is the one without what was taken. -/
inductive Fetched where
  /-- an instruction -/
  | instr (i : Instr) (s : State)
  /-- a request with reserved operand bits set (R75 (b)); byte 0 -/
  | illegal (b0 : Byte) (s : State)
  /-- an internal bus word that is none of the engine's (R72) -/
  | unknownWord
  /-- no whole request on the port: the engine is idle (R119, R136) -/
  | idle

/-- Internal operations go first (log entry 8); otherwise the request decoder reads the port. -/
def fetch (s : State) : Fetched :=
  match s.internalOps with
  | op :: ops =>
    match decodeInternal op with
    | some i => .instr i { s with internalOps := ops }
    | none => .unknownWord
  | [] =>
    match decodeRequest s.requests with
    | .instr i rest => .instr i { s with requests := rest }
    | .illegal b0 rest => .illegal b0 { s with requests := rest }
    | .incomplete => .idle

/-- Run what was fetched; `s` is the state it was fetched from. -/
def runFetched (s : State) : Fetched → Host.Outcome State Fault Refusal
  | .instr i s' => exec i s'
  | .illegal b0 s' => raise (.illegalRequest b0) s'
  | .unknownWord => .refused .notAnEngineWord
  | .idle => .next s

/-- The bytes of the one request at the front of `bytes`. -/
def frontRequest (bytes : List Byte) : List Byte :=
  match decodeRequest bytes with
  | .instr _ rest => bytes.take (bytes.length - rest.length)
  | .illegal _ rest => bytes.take (bytes.length - rest.length)
  | .incomplete => bytes

/-- Place one instruction's written form where `fetch` takes from: a request at the front of the request port, with no
internal operation before it, or an internal operation at the front of the internal ones. -/
def placeNext (e : Encoded) (s : State) : State :=
  match e with
  | .request bytes => { s with internalOps := [], requests := frontRequest bytes ++ s.requests }
  | .internal op => { s with internalOps := op :: s.internalOps }

end Sys2Proof.Machine
end

