-- ==== Sys2Proof/Machine/Step.lean ====
section
/-! DEFINITION. One step of the machine: the next internal operation or request, taken whole and run to completion (R14,
R21, D23); and how an instruction is placed for the next step. -/

namespace Sys2Proof.Machine

/-- One step. With no whole request on the port the engine is idle and nothing changes. -/
def step (s : State) : Host.Outcome State Fault Refusal := runFetched s (fetch s)

/-- `s` with the table word `w` placed so that the next step runs it (log entry 9). -/
def State.withFetchWord (s : State) (nbits w : Nat) : State := placeNext (tableForm nbits w) s

end Sys2Proof.Machine
end

