-- ==== Sys2Proof/Machine/Bus.lean ====
section
/-! DEFINITION. What the trace means at the bus: transfers (R45), the bus words they form (R61, R62), the log of
nibbles and bytes (R46), and the sum of the waits (R140). -/

namespace Sys2Proof.Machine

/-- A transfer's content (R45): `rw` is absent when the line does not exist. -/
structure Transfer where
  rs : Level
  rw : Option Level
  nibble : BitVec 4
deriving DecidableEq, Repr

/-- One enable pulse: the transfer and the waits that follow its falling edge. -/
structure Pulse where
  content : Transfer
  waits : List Micros
deriving DecidableEq, Repr

/-- The inverse of `lvl`. -/
def levelBit : Level → Bool
  | .low => false
  | .high => true

/-- The transfer the lines hold (R45): `n = (D3, D2, D1, D0)` with D0 the least significant bit. -/
def lineContent (rwPresent : Bool) (v : Lines Level) : Transfer :=
  { rs := v.rs
    rw := if rwPresent then some v.rw else none
    nibble := BitVec.ofBool (levelBit v.d3) ++ BitVec.ofBool (levelBit v.d2) ++ BitVec.ofBool (levelBit v.d1) ++
      BitVec.ofBool (levelBit v.d0) }

/-- The waits at the front of a list of events. -/
def leadingWaits : List Event → List Micros
  | .wait n :: es => n :: leadingWaits es
  | _ => []

/-- After `Drive(E, High)`: when only waits stand before the next `Drive(E, Low)`, the waits that follow it. -/
def pulseEnd : List Event → Option (List Micros)
  | .wait _ :: es => pulseEnd es
  | .drive .e .low :: es => some (leadingWaits es)
  | _ => none

/-- The pulses of a list of events, from lines at the levels `v` (R45). -/
def pulsesFrom (rwPresent : Bool) : Lines Level → List Event → List Pulse
  | _, [] => []
  | v, e :: es =>
    let v' := e.onLevel v
    if e = .drive .e .high then
      match pulseEnd es with
      | some waits => ⟨lineContent rwPresent v', waits⟩ :: pulsesFrom rwPresent v' es
      | none => pulsesFrom rwPresent v' es
    else pulsesFrom rwPresent v' es

/-- `transfers` of R45, of the events emitted from a state on. -/
def transfersFrom (s : State) (es : List Event) : List Transfer :=
  (pulsesFrom s.cfg.rwPresent s.level es).map Pulse.content

/-- The `BUS5` word of a transfer (R61). -/
def bus5Word (t : Transfer) : BitVec 5 := BitVec.ofBool (levelBit t.rs) ++ t.nibble

/-- The `BUS9` word of a byte transfer (R62): high nibble, then low nibble. -/
def bus9Word (h l : Transfer) : BitVec 9 := BitVec.ofBool (levelBit h.rs) ++ h.nibble ++ l.nibble

/-- The two transfers of a `BUS9` word with RW held Low (R41, R62). -/
def bus9Transfers (rwPresent : Bool) (w : BitVec 9) : List Transfer :=
  let rs := lvl (w.getLsbD 8)
  let rw := if rwPresent then some Level.low else none
  [⟨rs, rw, w.extractLsb' 4 4⟩, ⟨rs, rw, w.extractLsb' 0 4⟩]

/-- An entry of the log of R46: what was sent, its mode, and the wait the calling operation adds after it. -/
inductive LogEntry where
  | nibble (n : BitVec 4) (mode : Mode) (delay : Option Micros)
  | byte (b : Byte) (mode : Mode) (delay : Option Micros)
deriving DecidableEq, Repr

/-- The mode RS stands for. -/
def levelMode : Level → Mode
  | .low => .command
  | .high => .data

/-- The wait after a pulse that is not `write_nibble`'s own (R46, C5). -/
def Pulse.delay (p : Pulse) : Option Micros := p.waits[1]?

/-- Pair the pulses into bytes (R46). -/
def byteEntries : List Pulse → List LogEntry
  | h :: l :: ps => .byte (h.content.nibble ++ l.content.nibble) (levelMode h.content.rs) l.delay :: byteEntries ps
  | _ => []

/-- The log of R46: the first `n` transfers are nibbles, all later ones are paired. -/
def logOf (n : Nat) (ps : List Pulse) : List LogEntry :=
  ((ps.take n).map fun p => .nibble p.content.nibble (levelMode p.content.rs) p.delay) ++ byteEntries (ps.drop n)

/-- The wait an event is. -/
def Event.waitTime : Event → Nat
  | .dir _ _ => 0
  | .drive _ _ => 0
  | .wait n => n.toNat

/-- The sum of the waits: a lower bound on the elapsed microseconds (R140). -/
def totalWait (es : List Event) : Nat := (es.map Event.waitTime).sum

end Sys2Proof.Machine
end

