-- ==== Sys2Proof/Machine/Platform.lean ====
section
/-! DEFINITION. The platform side of the events (R121 to R128): the calls they stand for, the lookup of a pin, and the
delay algorithm on the samples of the free-running counter. The engine's step does not depend on it (R7). -/

namespace Sys2Proof.Machine

/-- A call of the GPIO or the timing collaborator. -/
inductive PlatformCall where
  /-- `set_mode(logical_pin, mode)`, also called `set_direction` (R122, C7) -/
  | setMode (pin : Nat) (mode : Direction)
  /-- `write(logical_pin, level)` (R123) -/
  | write (pin : Nat) (level : Level)
  /-- `delay_microseconds(us)` (R125) -/
  | delayMicroseconds (us : Micros)
deriving DecidableEq, Repr

/-- The call an event is (R122, R123, R125). -/
def Event.call (c : Cfg) : Event → PlatformCall
  | .dir l m => .setMode (c.pins.get l) m
  | .drive l v => .write (c.pins.get l) v
  | .wait n => .delayMicroseconds n

/-- The logical pin a call resolves, if any. -/
def PlatformCall.pin? : PlatformCall → Option Nat
  | .setMode pin _ => some pin
  | .write pin _ => some pin
  | .delayMicroseconds _ => none

/-- `resolve(logical_pin)` (R121): an `InvalidPin` error outside the table. -/
def resolve (c : Cfg) (pin : Nat) : Except Report PinEntry :=
  if pin < c.pinTableSize then .ok (Config.pinEntry pin) else .error (.invalidPin pin)

/-- The target of a delay, in ticks (R127, D18): `ceil(us * TICKS_PER_MS / 1000)`. -/
def delayTarget (ticksPerMs us : Nat) : Nat := (us * ticksPerMs + 999) / 1000

/-- The ticks from one sample of the down-counter to the next, with at most one wrap seen (R127). -/
def ticksBetween (ticksPerMs prev now : Nat) : Nat := if prev < now then prev + ticksPerMs - now else prev - now

/-- The loop of R127 on the samples the counter will give: the accumulated ticks when it ends, nothing while it still
waits for more samples. -/
def delayLoop (ticksPerMs target : Nat) : Nat → Nat → List Nat → Option Nat
  | _, elapsed, [] => if target ≤ elapsed then some elapsed else none
  | prev, elapsed, now :: samples =>
    if target ≤ elapsed then some elapsed
    else delayLoop ticksPerMs target now (elapsed + ticksBetween ticksPerMs prev now) samples

/-- `delay_microseconds(us)` (R127): `first` is the sample taken before the loop. -/
def delayMicroseconds (ticksPerMs us first : Nat) (samples : List Nat) : Option Nat :=
  delayLoop ticksPerMs (delayTarget ticksPerMs us) first 0 samples

/-- The value of the counter `tick` ticks after it held the reload value: it counts down and wraps (R126). -/
def counterAt (ticksPerMs tick : Nat) : Nat := ticksPerMs - tick % ticksPerMs

end Sys2Proof.Machine
end

