-- ==== Sys2Proof/Safety.lean ====
section
/-! DEFINITION. The terms claims use: the event lists of the spec's vectors, the lines they leave, the invariants of R34,
R31 and R142, and what counts as an event or a word of this engine. -/

namespace Sys2Proof

/-! ## Kinds of instruction -/

/-- `begin` and `init`, the only operations that initialize (R85). -/
def Instr.isBegin : Instr → Bool
  | .init => true
  | .begin _ _ _ => true
  | _ => false

/-- The six operating commands (R95). -/
def Instr.isOperating : Instr → Bool
  | .setCursor _ _ => true
  | .drawChar _ _ _ => true
  | .drawString _ => true
  | .clear => true
  | .on => true
  | .off => true
  | _ => false

/-- The reserved request (R75). -/
def Instr.isReserved : Instr → Bool
  | .reservedRequest _ => true
  | _ => false

/-- What the request port takes (R74). -/
def Instr.isRequest (i : Instr) : Bool := i.isBegin || i.isOperating || i.isReserved

namespace Machine

/-! ## The event lists of spec/95_test_vectors.md -/

/-- `PULSE`: six events. -/
def specPulse (c : Cfg) : List Event :=
  [.drive .e .low, .wait c.tSetup, .drive .e .high, .wait c.tHigh, .drive .e .low, .wait c.tSettle]

/-- `NIB(b3 b2 b1 b0)`: the four data lines, D0 first, then the pulse. -/
def specNib (c : Cfg) (b3 b2 b1 b0 : Bool) : List Event :=
  .drive .d0 (lvl b0) :: .drive .d1 (lvl b1) :: .drive .d2 (lvl b2) :: .drive .d3 (lvl b3) :: specPulse c

/-- A byte transfer (R82): RS, RW when it exists, the nibble of bits 7 to 4, the nibble of bits 3 to 0. -/
def specByte (c : Cfg) (v : Byte) (m : Mode) : List Event :=
  ([.drive .rs (match m with | .command => .low | .data => .high)] : List Event) ++
    (if c.rwPresent then [.drive .rw .low] else [] : List Event) ++
    specNib c (v.getLsbD 7) (v.getLsbD 6) (v.getLsbD 5) (v.getLsbD 4) ++
    specNib c (v.getLsbD 3) (v.getLsbD 2) (v.getLsbD 1) (v.getLsbD 0)

/-- The nibble of the low four bits of a byte. -/
def specNibOf (c : Cfg) (v : Byte) : List Event :=
  specNib c (v.getLsbD 3) (v.getLsbD 2) (v.getLsbD 1) (v.getLsbD 0)

/-- The events of `begin` (R87 steps 4 to 10, vector V-A1), for the `function_bits` of step 7. -/
def specBegin (c : Cfg) (functionBits : Byte) : List Event :=
  (([.dir .rs .output] : List Event) ++ (if c.rwPresent then [.dir .rw .output] else [] : List Event) ++
    ([.dir .e .output, .dir .d0 .output, .dir .d1 .output, .dir .d2 .output, .dir .d3 .output] : List Event)) ++
  (([.drive .rs .low] : List Event) ++ (if c.rwPresent then [.drive .rw .low] else [] : List Event) ++
    ([.drive .e .low, .wait c.tPowerOn] : List Event)) ++
  (specNibOf c c.hsNibbleA ++ ([.wait c.tHs1] : List Event)) ++
  (specNibOf c c.hsNibbleA ++ ([.wait c.tHs2] : List Event)) ++
  (specNibOf c c.hsNibbleA ++ ([.wait c.tHs3] : List Event)) ++
  specNibOf c c.hsNibbleB ++
  specByte c (c.cmdFunctionSet ||| functionBits) .command ++
  specByte c (c.cmdDisplayControl ||| c.ctDisplayOn) .command ++
  (specByte c c.cmdClearDisplay .command ++ ([.wait c.tClear] : List Event)) ++
  specByte c (c.cmdEntryModeSet ||| c.emLeft) .command

/-- The events of `draw_string` (R98). -/
def specString (c : Cfg) (cs : List Byte) : List Event := cs.flatMap fun ch => specByte c ch .data

/-! ## The levels they leave -/

/-- The levels after a nibble of the low four bits of `v` (R81): E Low, the data lines hold the nibble. -/
def levelsAfterNibble (v : Byte) (l : Lines Level) : Lines Level :=
  { l with
    e := .low
    d0 := lvl (v.getLsbD 0)
    d1 := lvl (v.getLsbD 1)
    d2 := lvl (v.getLsbD 2)
    d3 := lvl (v.getLsbD 3) }

/-- The levels after a byte transfer (R82): RS by the mode, RW Low when it exists, E Low, `value[3:0]` on the data
lines. -/
def levelsAfterByte (c : Cfg) (v : Byte) (m : Mode) (l : Lines Level) : Lines Level :=
  levelsAfterNibble v
    { l with
      rs := match m with | .command => .low | .data => .high
      rw := if c.rwPresent then .low else l.rw }

/-- The levels after `draw_string` (R98): those after its last character. -/
def levelsAfterString (c : Cfg) (cs : List Byte) (l : Lines Level) : Lines Level :=
  match cs.getLast? with
  | none => l
  | some ch => levelsAfterByte c ch .data l

/-- Every existing line an output (R87 step 4). -/
def allOutputs (c : Cfg) (d : Lines Direction) : Lines Direction :=
  { rs := .output, rw := if c.rwPresent then .output else d.rw, e := .output, d0 := .output, d1 := .output,
    d2 := .output, d3 := .output }

/-! ## Invariants -/

/-- R34 (3), for an initialized engine: what `begin` leaves behind and every later operation keeps. -/
structure State.ReadyInv (s : State) : Prop where
  control : s.controlBits = s.cfg.ctDisplayOn ∨ s.controlBits = 0x00
  entryMode : s.entryModeBits = s.cfg.emLeft
  rows : ∃ columns, s.rowOffsets = rowOffsetsFor s.cfg columns
  outputs : ∀ l, s.cfg.hasLine l = true → s.dir.get l = .output
  enableLow : s.level.e = .low
  writeLow : s.cfg.rwPresent = true → s.level.rw = .low
  /-- `begin` only completes under a well-formed configuration with valid pins (R87, R107, R110). -/
  configured : s.cfg.wf = true ∧ ∀ p ∈ s.cfg.pinList, p < s.cfg.pinTableSize

/-- The invariants of R34, with R23's "the host only ever finds `fsm_state` equal to `Uninitialized` or `Ready`" and
R25's reachable values of `function_bits`. -/
structure State.Inv (s : State) : Prop where
  /-- `row_offsets` has exactly `MAX_ROWS` entries regardless of `line_count` (R28). -/
  rowCount : s.rowOffsets.length = s.cfg.maxRows
  between : s.fsmState = .uninitialized ∨ s.fsmState = .ready
  ready : s.initialized = true ↔ s.fsmState = .ready
  fourBit : s.functionBits &&& s.cfg.fn8bit = 0
  functionValues : s.functionBits = 0x00 ∨ s.functionBits = s.cfg.fn2line ∨ s.functionBits = s.cfg.fn5x10
  functionReset : s.fsmState = .uninitialized → s.functionBits = 0x00
  whenReady : s.initialized = true → s.ReadyInv

/-- The level the last `Drive` on a line gave it, if there was one. -/
def lastLevel (l : Line) : List Event → Option Level :=
  List.foldl (fun acc e => match e with | .drive l' a => if l' = l then some a else acc | _ => acc) none

/-- The direction the last `Dir` on a line gave it, if there was one. -/
def lastDir (l : Line) : List Event → Option Direction :=
  List.foldl (fun acc e => match e with | .dir l' d => if l' = l then some d else acc | _ => acc) none

/-- R31: the lines "mirror the last `Dir` and `Drive` event on the line". -/
def State.MirrorsTrace (s : State) : Prop :=
  (∀ l a, lastLevel l s.trace = some a → s.level.get l = a) ∧ (∀ l d, lastDir l s.trace = some d → s.dir.get l = d)

/-- R142: read from a place where E is High or not (`high`), no line but E changes while E is High. -/
def stableFrom : Bool → List Event → Bool
  | _, [] => true
  | _, .drive .e a :: es => stableFrom (a = .high) es
  | high, .drive _ _ :: es => !high && stableFrom high es
  | high, .dir _ _ :: es => !high && stableFrom high es
  | high, .wait _ :: es => stableFrom high es

/-- R142 and R34 (4) of the trace: lines are stable in every pulse, and no pulse is left open. -/
def State.PulsesClosed (s : State) : Prop := stableFrom false s.trace = true ∧ lastLevel .e s.trace ≠ some .high

/-- The waits the engine asks for (R125). -/
def engineWaits (c : Cfg) : List Micros :=
  [c.tSetup, c.tHigh, c.tSettle, c.tPowerOn, c.tHs1, c.tHs2, c.tHs3, c.tClear]

/-- An event of this engine: it makes lines outputs only (R122), never drives RW High (R72), names RW only when it
exists (R31), and asks for the listed waits only (R125). -/
def engineEvent (c : Cfg) : Event → Bool
  | .dir l d => d == .output && c.hasLine l
  | .drive l a => (l != .rw || a == .low) && c.hasLine l
  | .wait n => (engineWaits c).contains n

/-- R72 of a list of transfers: the first `n` are single nibbles the engine emits, the rest are pairs that are bytes
the engine emits, and RW is Low wherever it exists. -/
def engineWords : Nat → List Transfer → Bool
  | n + 1, t :: ts => (decodeBus5 (bus5Word t)).isSome && t.rw != some .high && engineWords n ts
  | 0, h :: l :: ts =>
    (decodeBus9 (bus9Word h l)).isSome && h.rs == l.rs && h.rw != some .high && l.rw != some .high && engineWords 0 ts
  | _, [] => true
  | 0, [_] => false

end Machine

end Sys2Proof
end

