-- ==== Sys2Proof/Certificates/Slice0/Obligations.lean ====
section
/-! DEFINITION. The statements for the provers, in the order of OBLIGATIONS.json. A statement about every state holds of
every configuration the state may hold; `s.cfg.wf` is R11, the premise of every rule (R11, D22). -/

open Sys2Proof Sys2Proof.Machine

/-! ## Encoding -/

/-- Words written out from the tables of R74 and of R61 to R70 decode to the instructions they stand for. -/
def Obligations.WrittenWordsDecode : Prop :=
  decodeRequest [0x00] = .instr .init [] ∧
  decodeRequest [0x01, 0x10, 0x02, 0x01] = .instr (.begin 16 2 .f5x10) [] ∧
  decodeRequest [0x02, 0x05, 0x03, 0x07] = .instr (.setCursor 5 3) [0x07] ∧
  decodeRequest [0x04, 0x02, 0x48, 0x69, 0x05] = .instr (.drawString [0x48, 0x69]) [0x05] ∧
  decodeBus5 0b00011 = some .hs3 ∧
  decodeBus9 0b000101000 = some (.functionset false true false) ∧
  decodeBus9 0b000001100 = some (.displaycontrol true false false) ∧
  decodeBus9 0b000000110 = some (.entrymodeset true false) ∧
  decodeBus9 0b010011001 = some (.setddramaddr 0x19) ∧
  decodeBus9 0b101000001 = some (.datawrite 0x41)

/-- Requests: decoding an encoded well-formed request gives it back, whatever follows it on the port; and whatever the
decoder reads as an instruction is a well-formed one and is exactly its own encoding. So a stream of bytes has one
meaning (R73 to R76). -/
def Obligations.RequestDecodeEncode : Prop :=
  (∀ i bytes rest, i.wf = true → encode i = .request bytes → decodeRequest (bytes ++ rest) = .instr i rest) ∧
  (∀ stream i rest, decodeRequest stream = .instr i rest →
    i.wf = true ∧ ∃ bytes, encode i = .request bytes ∧ stream = bytes ++ rest)

/-- Bus words and micro-operations: encoding and decoding are inverse, both ways; a bus word that is none of the eight
of R72 decodes to nothing. -/
def Obligations.InternalDecodeEncode : Prop :=
  ∀ i op, encode i = .internal op ↔ decodeInternal op = some i

/-- R75, R109: (a) an opcode byte 0x08 to 0xFF raises `IllegalRequest(byte0)` and consumes that byte; (b) a `BEGIN` with
a reserved `charsize` bit set raises `IllegalRequest(byte0)` after its four bytes, and one without is a `begin` with
the font of bit 0; (c) every other operand byte accepts all values. A raised request changes nothing but the error
port. It holds in every state, so the check comes before every other. -/
def Obligations.ReservedRequestsRaise : Prop :=
  (∀ (s : State) b rest, 8 ≤ b.toNat →
    exec (.reservedRequest b) s = .next { s with reports := s.reports ++ [.illegalRequest b] } ∧
    (s.internalOps = [] → s.requests = b :: rest →
      step s = .next { s with requests := rest, reports := s.reports ++ [.illegalRequest b] })) ∧
  (∀ (s : State) columns lines charsize rest, s.internalOps = [] →
    s.requests = 0x01 :: columns :: lines :: charsize :: rest → charsize &&& 0xFE ≠ 0 →
    step s = .next { s with requests := rest, reports := s.reports ++ [.illegalRequest 0x01] }) ∧
  (∀ columns lines charsize rest, charsize &&& 0xFE = 0 →
    decodeRequest (0x01 :: columns :: lines :: charsize :: rest) =
      .instr (.begin columns lines (if charsize.getLsbD 0 then .f5x10 else .f5x8)) rest) ∧
  (∀ x y rest, decodeRequest (0x02 :: x :: y :: rest) = .instr (.setCursor x y) rest) ∧
  (∀ x y c rest, decodeRequest (0x03 :: x :: y :: c :: rest) = .instr (.drawChar x y c) rest) ∧
  (∀ (n : Byte) cs rest, cs.length = n.toNat →
    decodeRequest (0x04 :: n :: (cs ++ rest)) = .instr (.drawString cs) rest)

/-! ## A step -/

/-- With no internal operation placed and a whole request at the front of the port, a step is that request's `exec`, at
the state without its bytes. -/
def Obligations.StepRunsDecodedRequest : Prop :=
  ∀ (s : State) i rest, s.internalOps = [] → decodeRequest s.requests = .instr i rest →
    step s = exec i { s with requests := rest }

/-- With an internal operation placed, a step is its `exec`, at the state without it (log entry 8: the model's own
input). -/
def Obligations.StepRunsInternalOperation : Prop :=
  ∀ (s : State) op ops i, s.internalOps = op :: ops → decodeInternal op = some i →
    step s = exec i { s with internalOps := ops }

/-- With no whole request on the port the engine is idle: a step changes nothing (log entry 7). -/
def Obligations.IdleStepChangesNothing : Prop :=
  ∀ (s : State), s.internalOps = [] → decodeRequest s.requests = .incomplete → step s = .next s

/-- Every well-formed instruction can be placed, and the next step runs exactly it: a request from the port, with what
was on the port left behind it, an internal operation from the internal input. -/
def Obligations.PlacedInstructionRunsNext : Prop :=
  ∀ (s : State) (i : Instr), i.wf = true → s.internalOps = [] → step (placeNext (encode i) s) = exec i s

/-! ## Micro-operations -/

/-- R81: `write_nibble` emits its ten events, leaves the nibble on D0 to D3 and E Low, and changes nothing else; the high
four bits of `value` are ignored; the bus sees one transfer, with the level already on RS. -/
def Obligations.WriteNibbleEmitsTenEvents : Prop :=
  ∀ (s : State) (value : Byte), s.cfg.wf = true →
    let es : List Event :=
      [.drive .d0 (lvl (value.getLsbD 0)), .drive .d1 (lvl (value.getLsbD 1)), .drive .d2 (lvl (value.getLsbD 2)),
        .drive .d3 (lvl (value.getLsbD 3)), .drive .e .low, .wait s.cfg.tSetup, .drive .e .high, .wait s.cfg.tHigh,
        .drive .e .low, .wait s.cfg.tSettle]
    exec (.writeNibble value) s =
      .next
        { s with
          level :=
            { s.level with
              e := .low
              d0 := lvl (value.getLsbD 0)
              d1 := lvl (value.getLsbD 1)
              d2 := lvl (value.getLsbD 2)
              d3 := lvl (value.getLsbD 3) }
          trace := s.trace ++ es } ∧
    exec (.writeNibble value) s = exec (.writeNibble (value &&& 0x0F)) s ∧
    transfersFrom s es =
      [⟨s.level.rs, if s.cfg.rwPresent then some s.level.rw else none, value.extractLsb' 0 4⟩] ∧
    (s.cfg.HasSpecValues → s.cfg.tSetup = 1 ∧ s.cfg.tHigh = 1 ∧ s.cfg.tSettle = 100)

/-- R82: `send` drives RS by the mode, RW Low when it exists, then the high and the low nibble: 22 or 21 events; it
leaves `value[3:0]` on the data lines and E Low, and changes nothing else; the bus sees the two transfers of the word
`(rs, value)`. -/
def Obligations.SendEmitsByteTransfer : Prop :=
  ∀ (s : State) (value : Byte) (mode : Mode), s.cfg.wf = true →
    exec (.send value mode) s =
      .next
        { s with
          level :=
            { rs := match mode with | .command => .low | .data => .high
              rw := if s.cfg.rwPresent then .low else s.level.rw
              e := .low
              d0 := lvl (value.getLsbD 0)
              d1 := lvl (value.getLsbD 1)
              d2 := lvl (value.getLsbD 2)
              d3 := lvl (value.getLsbD 3) }
          trace := s.trace ++ specByte s.cfg value mode } ∧
    (specByte s.cfg value mode).length = (if s.cfg.rwPresent then 22 else 21) ∧
    transfersFrom s (specByte s.cfg value mode) =
      bus9Transfers s.cfg.rwPresent (BitVec.ofBool (mode == .data) ++ value)

/-- R83: `command(value)` is `send(value, Command)`, and it completes. -/
def Obligations.CommandIsSendCommand : Prop :=
  ∀ (s : State) (value : Byte),
    exec (.command value) s = exec (.send value .command) s ∧
    (s.cfg.wf = true → ∃ t, exec (.command value) s = .next t)

/-! ## `begin` and `init` -/

/-- R87: an admitted `begin` completes; the registers, lines and events it leaves, and all that it leaves unchanged. The
`function_bits` it starts from are those of `s`, since `begin` only ever sets bits. The row table has `MAX_ROWS`
entries (R10), and the first four are those of step 2. The spec states step 2 for `MAX_ROWS = 4`; that another `MAX_ROWS`
keeps the first of these entries, or adds more, is the model's reading (log entry 17, DEDUCED and DESIGN CHOICE). -/
def Obligations.BeginCompletes : Prop :=
  ∀ (s : State) (columns lines : Byte) (charsize : Font), s.cfg.wf = true → s.fsmState = .uninitialized →
    (∀ p ∈ s.cfg.pinList, p < s.cfg.pinTableSize) →
    let twoLine := if 1 < lines.toNat then s.functionBits ||| s.cfg.fn2line else s.functionBits
    let bits := if charsize = .f5x10 ∧ lines = 1 then twoLine ||| s.cfg.fn5x10 else twoLine
    exec (.begin columns lines charsize) s =
      .next
        { s with
          fsmState := .ready
          initialized := true
          functionBits := bits
          controlBits := s.cfg.ctDisplayOn
          entryModeBits := s.cfg.emLeft
          rowOffsets := rowOffsetsFor s.cfg columns
          lineCount := lines
          dir := allOutputs s.cfg s.dir
          level := levelsAfterByte s.cfg (s.cfg.cmdEntryModeSet ||| s.cfg.emLeft) .command s.level
          trace := s.trace ++ specBegin s.cfg bits
          reports := s.reports ++ [.completed] } ∧
    (rowOffsetsFor s.cfg columns).length = s.cfg.maxRows ∧
    (∀ row offset, row < s.cfg.maxRows →
      [s.cfg.rowBaseEven, s.cfg.rowBaseOdd, s.cfg.rowBaseEven + columns, s.cfg.rowBaseOdd + columns][row]? = some offset →
      (rowOffsetsFor s.cfg columns)[row]? = some offset)

/-- R86: `init()` is `begin(20, 4, 5x8)`, with its flags, errors and corner cases; it completes where that does; from
reset, under valid pins, it leaves the registers and the byte log of R86's example. -/
def Obligations.InitIsBegin20x4 : Prop :=
  (∀ (s : State), exec .init s = exec (.begin s.cfg.initColumns s.cfg.initLines s.cfg.initCharsize) s) ∧
  (∀ (s : State), s.cfg.HasSpecValues → exec .init s = exec (.begin 20 4 .f5x8) s) ∧
  (∀ (s : State), s.cfg.wf = true → s.fsmState = .uninitialized → (∀ p ∈ s.cfg.pinList, p < s.cfg.pinTableSize) →
    ∃ t, exec .init s = .next t ∧ t.fsmState = .ready ∧ t.initialized = true ∧
      t.reports = s.reports ++ [.completed]) ∧
  (∀ (c : Cfg), c.wf = true → c.HasSpecValues → (∀ p ∈ c.pinList, p < c.pinTableSize) →
    ∃ t, exec .init (State.resetWith c) = .next t ∧
      t.functionBits = 0x08 ∧ t.lineCount = 4 ∧ t.rowOffsets = [0x00, 0x40, 0x14, 0x54] ∧
      t.controlBits = 0x04 ∧ t.entryModeBits = 0x02 ∧ t.initialized = true ∧
      logOf 4 (pulsesFrom c.rwPresent (State.resetWith c).level t.trace) =
        [.nibble 0x3 .command (some 4500), .nibble 0x3 .command (some 4500), .nibble 0x3 .command (some 150),
          .nibble 0x2 .command none, .byte 0x28 .command none, .byte 0x0C .command none,
          .byte 0x01 .command (some 2000), .byte 0x06 .command none])

/-- R89, for the values of R10: the number of events and of transfers of a completed `begin`, the sum of its waits, and
its log (R46, S5); only the `FUNCTIONSET` byte depends on the operands, and `columns` changes no event. -/
def Obligations.BeginShape : Prop :=
  ∀ (s t : State) (columns lines : Byte) (charsize : Font), s.cfg.HasSpecValues →
    exec (.begin columns lines charsize) s = .next t → t.reports = s.reports ++ [.completed] →
    ∃ es, t.trace = s.trace ++ es ∧ es.length = (if s.cfg.rwPresent then 143 else 137) ∧
      (transfersFrom s es).length = 12 ∧ totalWait es = 62374 ∧
      logOf 4 (pulsesFrom s.cfg.rwPresent s.level es) =
        [.nibble 0x3 .command (some 4500), .nibble 0x3 .command (some 4500), .nibble 0x3 .command (some 150),
          .nibble 0x2 .command none, .byte (0x20 ||| t.functionBits) .command none, .byte 0x0C .command none,
          .byte 0x01 .command (some 2000), .byte 0x06 .command none] ∧
      ∀ columns', ∃ t', exec (.begin columns' lines charsize) s = .next t' ∧ t'.trace = s.trace ++ es

/-- S1, R25: in the `function_bits` that the first `begin` sends, the 2-line bit is set exactly when `lines > 1`, the
5x10 bit exactly when the taller font is asked with `lines = 1`, and the 8-bit bit never. It starts from
`function_bits = 0`, the reset value of R36. -/
def Obligations.FunctionBitsOfFirstBegin : Prop :=
  ∀ (s t : State) (columns lines : Byte) (charsize : Font), s.functionBits = 0 →
    exec (.begin columns lines charsize) s = .next t → t.reports = s.reports ++ [.completed] →
    (t.functionBits &&& t.cfg.fn2line ≠ 0 ↔ 1 < lines.toNat) ∧
    (t.functionBits &&& t.cfg.fn5x10 ≠ 0 ↔ charsize = .f5x10 ∧ lines = 1) ∧
    t.functionBits &&& t.cfg.fn8bit = 0

/-- R110 (a): `begin` and `init` are refused unless `fsm_state` is `Uninitialized`. -/
def Obligations.SecondBeginRefused : Prop :=
  ∀ (s : State) (i : Instr), s.cfg.wf = true → i.isBegin = true → s.fsmState ≠ .uninitialized →
    exec i s = .refused .secondBegin

/-- R107, R113: when a pin in use is not below `PIN_TABLE_SIZE`, `begin` and `init` raise `InvalidPin` with the first
such pin in the order RS, RW, E, D0 to D3, and nothing else changes. -/
def Obligations.InvalidPinRaised : Prop :=
  ∀ (s : State) (i : Instr) valid pin others, s.cfg.wf = true → i.isBegin = true → s.fsmState = .uninitialized →
    [s.cfg.pins.rs] ++ (if s.cfg.rwPresent then [s.cfg.pins.rw] else []) ++
        [s.cfg.pins.e, s.cfg.pins.d0, s.cfg.pins.d1, s.cfg.pins.d2, s.cfg.pins.d3] = valid ++ pin :: others →
    (∀ p ∈ valid, p < s.cfg.pinTableSize) → s.cfg.pinTableSize ≤ pin →
    exec i s = .next { s with reports := s.reports ++ [.invalidPin pin] }

/-- R107: with an invalid pin the engine "can never be initialized under that configuration". -/
def Obligations.InvalidPinsNeverInitialize : Prop :=
  ∀ (s t : State), (∃ p ∈ s.cfg.pinList, s.cfg.pinTableSize ≤ p) → s.initialized = false → step s = .next t →
    t.initialized = false ∧ t.cfg = s.cfg

/-! ## Operating commands -/

/-- R106: the six operating commands raise `NotInitialized` while `initialized = false`, before anything else happens;
under R34's invariant that is the same as `fsm_state` not being `Ready`. -/
def Obligations.NotInitializedRaised : Prop :=
  ∀ (s : State) (i : Instr), s.cfg.wf = true → i.isOperating = true →
    (s.initialized = false → exec i s = .next { s with reports := s.reports ++ [.notInitialized] }) ∧
    (s.Inv → s.fsmState ≠ .ready → exec i s = .next { s with reports := s.reports ++ [.notInitialized] })

/-- R110 (b): `set_cursor` and `draw_char` are refused when `line_count = 0`. -/
def Obligations.EmptyRowRangeRefused : Prop :=
  ∀ (s : State) (x y c : Byte), s.cfg.wf = true → s.initialized = true → s.lineCount = 0 →
    exec (.setCursor x y) s = .refused .emptyRowRange ∧ exec (.drawChar x y c) s = .refused .emptyRowRange

/-- R96: `set_cursor(x, y)`: its request, its error, and its effect: the row is clamped to
`min(MAX_ROWS, line_count) - 1`, `x` is not, and `SETDDRAMADDR | (x + row_offsets[y'])` is sent, whose byte is 0x80 with the sum's low seven bits. That
the clamped row is in the table is the invariant of R28 (`RowEntriesPastLastNeverRead`). Nothing but the levels, the trace and the error port changes. -/
def Obligations.SetCursorSendsClampedAddress : Prop :=
  ∀ (s : State) (x y : Byte),
    (∀ rest, decodeRequest (0x02 :: x :: y :: rest) = .instr (.setCursor x y) rest) ∧
    (s.cfg.wf = true → s.initialized = false →
      exec (.setCursor x y) s = .next { s with reports := s.reports ++ [.notInitialized] }) ∧
    (s.cfg.wf = true → s.initialized = true → s.lineCount = 0 → exec (.setCursor x y) s = .refused .emptyRowRange) ∧
    (s.cfg.wf = true → s.initialized = true → min s.cfg.maxRows s.lineCount.toNat ≠ 0 → ∀ offset,
      let top := min s.cfg.maxRows s.lineCount.toNat - 1
      s.rowOffsets[if top < y.toNat then top else y.toNat]? = some offset →
      let byte := s.cfg.cmdSetDdramAddr ||| (x + offset)
      exec (.setCursor x y) s =
        .next
          { s with
            level := levelsAfterByte s.cfg byte .command s.level
            trace := s.trace ++ specByte s.cfg byte .command
            reports := s.reports ++ [.completed] } ∧
      byte.toNat = 128 + (x.toNat + offset.toNat) % 128)

/-- R97: `draw_char(x, y, c)`: its request, its error, and its effect: the address byte of `set_cursor(x, y)`, then `c`
as data, unchanged. -/
def Obligations.DrawCharSendsAddressThenData : Prop :=
  ∀ (s : State) (x y c : Byte),
    (∀ rest, decodeRequest (0x03 :: x :: y :: c :: rest) = .instr (.drawChar x y c) rest) ∧
    (s.cfg.wf = true → s.initialized = false →
      exec (.drawChar x y c) s = .next { s with reports := s.reports ++ [.notInitialized] }) ∧
    (s.cfg.wf = true → s.initialized = true → s.lineCount = 0 → exec (.drawChar x y c) s = .refused .emptyRowRange) ∧
    (s.cfg.wf = true → s.initialized = true → min s.cfg.maxRows s.lineCount.toNat ≠ 0 → ∀ offset,
      let top := min s.cfg.maxRows s.lineCount.toNat - 1
      s.rowOffsets[if top < y.toNat then top else y.toNat]? = some offset →
      exec (.drawChar x y c) s =
        .next
          { s with
            level := levelsAfterByte s.cfg c .data s.level
            trace :=
              s.trace ++ specByte s.cfg (s.cfg.cmdSetDdramAddr ||| (x + offset)) .command ++
                specByte s.cfg c .data
            reports := s.reports ++ [.completed] })

/-- R98: `draw_string(s)`: its request, its error, also for an empty string, and its effect: every character as data, in
order, and nothing else; an empty string emits nothing and moves no line. -/
def Obligations.DrawStringSendsCharacters : Prop :=
  ∀ (s : State) (cs : List Byte),
    (cs.length ≤ 255 → ∀ rest,
      decodeRequest (0x04 :: BitVec.ofNat 8 cs.length :: (cs ++ rest)) = .instr (.drawString cs) rest) ∧
    (s.cfg.wf = true → s.initialized = false →
      exec (.drawString cs) s = .next { s with reports := s.reports ++ [.notInitialized] }) ∧
    (s.cfg.wf = true → s.initialized = true →
      exec (.drawString cs) s =
        .next
          { s with
            level := levelsAfterString s.cfg cs s.level
            trace := s.trace ++ cs.flatMap fun c => specByte s.cfg c .data
            reports := s.reports ++ [.completed] } ∧
      (cs = [] → exec (.drawString cs) s = .next { s with reports := s.reports ++ [.completed] }))

/-- S4, R98 (b): the bus sees exactly `len(s)` bytes, in input order, all data, with no wait of their own after them. -/
def Obligations.DrawStringBytesInOrder : Prop :=
  ∀ (s : State) (cs : List Byte), s.cfg.wf = true → s.initialized = true →
    ∃ t es, exec (.drawString cs) s = .next t ∧ t.trace = s.trace ++ es ∧
      logOf 0 (pulsesFrom s.cfg.rwPresent s.level es) = cs.map fun c => .byte c .data none

/-- R98 (f), R76: drawing `a ++ b` leaves the lines, registers and trace that drawing `a` and then `b` leaves; only the
number of reports differs. -/
def Obligations.DrawStringConcatenates : Prop :=
  ∀ (s : State) (a b : List Byte), s.cfg.wf = true → s.initialized = true →
    ∃ t u v, exec (.drawString (a ++ b)) s = .next t ∧ exec (.drawString a) s = .next u ∧
      exec (.drawString b) u = .next v ∧ t = { v with reports := t.reports }

/-- R99: `clear()`: its request, its error, and its effect: `CLEARDISPLAY`, then a wait of `T_CLEAR` (2000) as an event
of its own; no register changes. -/
def Obligations.ClearSendsAndWaits : Prop :=
  ∀ (s : State),
    (∀ rest, decodeRequest (0x05 :: rest) = .instr .clear rest) ∧
    (s.cfg.wf = true → s.initialized = false →
      exec .clear s = .next { s with reports := s.reports ++ [.notInitialized] }) ∧
    (s.cfg.wf = true → s.initialized = true →
      exec .clear s =
        .next
          { s with
            level := levelsAfterByte s.cfg s.cfg.cmdClearDisplay .command s.level
            trace := s.trace ++ specByte s.cfg s.cfg.cmdClearDisplay .command ++ [.wait s.cfg.tClear]
            reports := s.reports ++ [.completed] }) ∧
    (s.cfg.HasSpecValues → s.cfg.cmdClearDisplay = 0x01 ∧ s.cfg.tClear = 2000)

/-- R100: `on()`: its request, its error, and its effect: the display bit of `control_bits` is set, every other bit is
kept, and `DISPLAYCONTROL | control_bits` is sent, also when the bit was set already. -/
def Obligations.OnSetsDisplayBit : Prop :=
  ∀ (s : State),
    (∀ rest, decodeRequest (0x06 :: rest) = .instr .on rest) ∧
    (s.cfg.wf = true → s.initialized = false →
      exec .on s = .next { s with reports := s.reports ++ [.notInitialized] }) ∧
    (s.cfg.wf = true → s.initialized = true →
      let bits := s.controlBits ||| s.cfg.ctDisplayOn
      exec .on s =
        .next
          { s with
            controlBits := bits
            level := levelsAfterByte s.cfg (s.cfg.cmdDisplayControl ||| bits) .command s.level
            trace := s.trace ++ specByte s.cfg (s.cfg.cmdDisplayControl ||| bits) .command
            reports := s.reports ++ [.completed] })

/-- R101: `off()`: its request, its error, and its effect: the display bit of `control_bits` is cleared, every other bit
is kept, and `DISPLAYCONTROL | control_bits` is sent; and `on`, `off`, `on` in a row set the display bit and leave all
other bits as they were (S7). -/
def Obligations.OffClearsDisplayBit : Prop :=
  ∀ (s : State),
    (∀ rest, decodeRequest (0x07 :: rest) = .instr .off rest) ∧
    (s.cfg.wf = true → s.initialized = false →
      exec .off s = .next { s with reports := s.reports ++ [.notInitialized] }) ∧
    (s.cfg.wf = true → s.initialized = true →
      let bits := s.controlBits &&& ~~~s.cfg.ctDisplayOn
      exec .off s =
        .next
          { s with
            controlBits := bits
            level := levelsAfterByte s.cfg (s.cfg.cmdDisplayControl ||| bits) .command s.level
            trace := s.trace ++ specByte s.cfg (s.cfg.cmdDisplayControl ||| bits) .command
            reports := s.reports ++ [.completed] }) ∧
    (s.cfg.wf = true → s.initialized = true →
      ∃ t u v, exec .on s = .next t ∧ exec .off t = .next u ∧ exec .on u = .next v ∧
        v.controlBits &&& v.cfg.ctDisplayOn = v.cfg.ctDisplayOn ∧
        v.controlBits &&& ~~~v.cfg.ctDisplayOn = s.controlBits &&& ~~~s.cfg.ctDisplayOn)

/-- S3, C2: a row at or past `line_count` gives what the last row gives, while `line_count` is 1 to `MAX_ROWS` (4 on this
hardware); above that the last row is row `MAX_ROWS - 1`. -/
def Obligations.RowsClampToLastRow : Prop :=
  ∀ (s : State) (x y : Byte),
    (1 ≤ s.lineCount.toNat → s.lineCount.toNat ≤ s.cfg.maxRows → s.lineCount.toNat ≤ y.toNat →
      exec (.setCursor x y) s = exec (.setCursor x (s.lineCount - 1)) s) ∧
    (1 ≤ s.cfg.maxRows → s.cfg.maxRows ≤ s.lineCount.toNat → s.cfg.maxRows - 1 ≤ y.toNat →
      exec (.setCursor x y) s = exec (.setCursor x (BitVec.ofNat 8 (s.cfg.maxRows - 1))) s)

/-- R102: after a `begin` with `columns`, the byte `set_cursor` puts on the bus is
`0x80 | ((x + base + (columns if y' >= 2 else 0)) mod 128)`, the sum taken without any wrap: the 8-bit table cannot be
seen on the bus. -/
def Obligations.AddressByteIgnoresTableWidth : Prop :=
  ∀ (s : State) (x y columns : Byte), s.cfg.wf = true → s.cfg.HasSpecValues → s.initialized = true →
    s.lineCount ≠ 0 → s.rowOffsets = rowOffsetsFor s.cfg columns →
    let row := min y.toNat (min 4 s.lineCount.toNat - 1)
    let sum := x.toNat + (if row % 2 = 0 then 0x00 else 0x40) + (if 2 ≤ row then columns.toNat else 0)
    ∃ t es, exec (.setCursor x y) s = .next t ∧ t.trace = s.trace ++ es ∧
      logOf 0 (pulsesFrom s.cfg.rwPresent s.level es) = [.byte (BitVec.ofNat 8 (128 + sum % 128)) .command none]

/-- R104, R148, for the values of R10: events, transfers and sum of waits of every operating command that completes. -/
def Obligations.OperatingTraceSizes : Prop :=
  ∀ (s t : State) (i : Instr), s.cfg.HasSpecValues → s.initialized = true → i.isOperating = true → exec i s = .next t →
    ∃ es, t.trace = s.trace ++ es ∧
      (es.length, (transfersFrom s es).length, totalWait es) =
        (let perByte := if s.cfg.rwPresent then 22 else 21
         match i with
         | .drawChar _ _ _ => (2 * perByte, 4, 408)
         | .drawString cs => (perByte * cs.length, 2 * cs.length, 204 * cs.length)
         | .clear => (perByte + 1, 2, 2204)
         | _ => (perByte, 2, 204))

/-! ## Bus words -/

/-- R63, R64: the handshake words are emitted as raw nibbles, with the level already on RS (log entry 10), and nothing
but the levels and the trace changes; with RS Low the bus sees the word of the table. -/
def Obligations.HandshakeWordsAreNibbles : Prop :=
  ∀ (s : State), s.cfg.wf = true →
    exec .hs3 s =
      .next
        { s with
          level := levelsAfterNibble s.cfg.hsNibbleA s.level
          trace := s.trace ++ specNibOf s.cfg s.cfg.hsNibbleA } ∧
    exec .hs2 s =
      .next
        { s with
          level := levelsAfterNibble s.cfg.hsNibbleB s.level
          trace := s.trace ++ specNibOf s.cfg s.cfg.hsNibbleB } ∧
    (s.cfg.HasSpecValues → s.level.rs = .low →
      (transfersFrom s (specNibOf s.cfg s.cfg.hsNibbleA)).map bus5Word = [0b00011] ∧
      (transfersFrom s (specNibOf s.cfg s.cfg.hsNibbleB)).map bus5Word = [0b00010])

/-- R65, R66, R68, R69, R71, R80, R33: the command words with fields, placed as instructions, are one byte transfer in
command mode, of the command's base OR-ed with the masks of the fields that are 1 (or with the address bits); no register
is written. That a placed word is sent also for field values the engine itself never emits, and writes no register, is
the model's reading (log entry 13, DEDUCED). -/
def Obligations.CommandWordsAreByteTransfers : Prop :=
  ∀ (s : State), s.cfg.wf = true →
    let sent (v : Byte) : State :=
      { s with
        level := levelsAfterByte s.cfg v .command s.level
        trace := s.trace ++ specByte s.cfg v .command }
    let bit (mask : Byte) (b : Bool) : Byte := if b then mask else 0
    (∀ w n f, exec (.functionset w n f) s =
      .next (sent (s.cfg.cmdFunctionSet ||| (bit s.cfg.fn8bit w ||| bit s.cfg.fn2line n ||| bit s.cfg.fn5x10 f)))) ∧
    (∀ d c b, exec (.displaycontrol d c b) s =
      .next (sent (s.cfg.cmdDisplayControl |||
        (bit s.cfg.ctDisplayOn d ||| bit s.cfg.ctCursorOn c ||| bit s.cfg.ctBlinkOn b)))) ∧
    (∀ l h, exec (.entrymodeset l h) s =
      .next (sent (s.cfg.cmdEntryModeSet ||| (bit s.cfg.emLeft l ||| bit s.cfg.emShift h)))) ∧
    (∀ a : BitVec 7, exec (.setddramaddr a) s = .next (sent (s.cfg.cmdSetDdramAddr ||| a.zeroExtend 8)))

/-- R67, R70: `CLEARDISPLAY` is always followed by its wait; `DATAWRITE` is the character as it is, with RS High. That the
wait belongs to the placed word, and that no register is written, is the model's reading (log entry 13, DEDUCED). -/
def Obligations.ClearAndDataWords : Prop :=
  ∀ (s : State), s.cfg.wf = true →
    exec .cleardisplay s =
      .next
        { s with
          level := levelsAfterByte s.cfg s.cfg.cmdClearDisplay .command s.level
          trace := s.trace ++ specByte s.cfg s.cfg.cmdClearDisplay .command ++ [.wait s.cfg.tClear] } ∧
    (∀ c, exec (.datawrite c) s =
      .next
        { s with
          level := levelsAfterByte s.cfg c .data s.level
          trace := s.trace ++ specByte s.cfg c .data })

/-- R61, R62, for the values of R10: what a nine-bit bus word puts on the wires is that word, as its encoding has it:
two transfers with its RS bit, high nibble first. -/
def Obligations.BusWordsReachTheWires : Prop :=
  ∀ (s : State) (i : Instr) (w : BitVec 9), s.cfg.wf = true → s.cfg.HasSpecValues → encode i = .internal (.bus9 w) →
    ∃ t es, exec i s = .next t ∧ t.trace = s.trace ++ es ∧ transfersFrom s es = bus9Transfers s.cfg.rwPresent w

/-- R72, for the values of R10: from a state that meets R34's invariant, every request emits engine words only: `begin`
and `init` four handshake nibbles and then bytes, every other request bytes, each decoding to one of the eight words,
with RW never High. -/
def Obligations.RequestsEmitEngineWordsOnly : Prop :=
  ∀ (s t : State) (i : Instr) es, s.Inv → s.cfg.HasSpecValues → i.isRequest = true → exec i s = .next t →
    t.trace = s.trace ++ es → engineWords (if i.isBegin then 4 else 0) (transfersFrom s es) = true

/-! ## The whole machine -/

/-- R34, R36: the state after reset meets the invariants, under every configuration: uninitialized, `function_bits` 0,
no event and no report. -/
def Obligations.ResetMeetsInvariants : Prop :=
  ∀ c : Cfg, (State.resetWith c).Inv ∧ (State.resetWith c).MirrorsTrace ∧ (State.resetWith c).PulsesClosed ∧
    (State.resetWith c).fsmState = .uninitialized ∧ (State.resetWith c).initialized = false ∧
    (State.resetWith c).functionBits = 0x00 ∧ (State.resetWith c).trace = [] ∧ (State.resetWith c).reports = []

/-- R34: every step keeps the invariants: `initialized` is `fsm_state = Ready`; the bus stays four bits wide; and once
initialized, the control, entry-mode and row registers, the directions and the idle levels are as R34 (3) says. For a
`MAX_ROWS` other than 4 the row table is the model's reading (log entry 17). -/
def Obligations.StepKeepsInvariant : Prop :=
  ∀ s t : State, s.Inv → step s = .next t → t.Inv

/-- R31: every step keeps the lines a mirror of the last `Dir` and `Drive` event on each. -/
def Obligations.LinesMirrorTrace : Prop :=
  ∀ s t : State, s.MirrorsTrace → step s = .next t → t.MirrorsTrace

/-- R142: every step keeps the trace free of a change of RS, RW or a data line while E is High, and leaves no pulse
open. -/
def Obligations.PulsesStayStable : Prop :=
  ∀ s t : State, s.PulsesClosed → step s = .next t → t.PulsesClosed

/-- R72, R122, R125, R55: a step only ever appends events, and each is one of the engine's: a direction made Output, a
level with RW never High, no event on an absent RW, and a wait from the list; the configuration never changes. -/
def Obligations.StepsAppendEngineEvents : Prop :=
  ∀ s t : State, step s = .next t →
    t.cfg = s.cfg ∧ ∃ es, t.trace = s.trace ++ es ∧ es.all (engineEvent s.cfg) = true

/-- R108: a raised request changes nothing but the error port, one that the decoder turns away included; and the engine
then takes the next request as if the failed one had not been made: what the port reported before is never read,
whatever the next instruction is. -/
def Obligations.ErrorsArePrecise : Prop :=
  (∀ (s t : State) (i : Instr) r, exec i s = .next t → t.reports = s.reports ++ [r] → r ≠ .completed →
    t = { s with reports := s.reports ++ [r] }) ∧
  (∀ (s : State) b rest, s.internalOps = [] → decodeRequest s.requests = .illegal b rest →
    step s = .next { s with requests := rest, reports := s.reports ++ [.illegalRequest b] }) ∧
  (∀ (s : State) (i : Instr) before,
    exec i { s with reports := before } =
      match exec i s with
      | .next t => .next { t with reports := before ++ t.reports.drop s.reports.length }
      | .fault f => .fault f
      | .refused r => .refused r)

/-- R105: every request that ends reports exactly one code, 0 for completion or that of its error; what is not a request
reports nothing. -/
def Obligations.OneReportPerRequest : Prop :=
  ∀ (s t : State) (i : Instr), exec i s = .next t →
    (i.isRequest = true → ∃ r, t.reports = s.reports ++ [r] ∧
      ((r.code = 0 ∧ r = .completed) ∨ (r.code = 1 ∧ i.isBegin = true ∧ firstInvalidPin s.cfg ≠ none) ∨
        (r.code = 2 ∧ i.isOperating = true ∧ s.initialized = false) ∨ (r.code = 3 ∧ i.isReserved = true))) ∧
    (i.isRequest = false → t.reports = s.reports)

/-- R110: an instruction is refused for the three named reasons and for no other: exactly when. The place of the first in
the order of checks is the model's (log entry 11), and so is the case `MAX_ROWS = 0` (log entry 17). -/
def Obligations.RefusalsExactlyWhen : Prop :=
  ∀ (s : State) (i : Instr) r, exec i s = .refused r ↔
    (r = .illFormedConfig ∧ s.cfg.wf = false ∧ i.isReserved = false) ∨
    (r = .secondBegin ∧ s.cfg.wf = true ∧ i.isBegin = true ∧ s.fsmState ≠ .uninitialized) ∨
    (r = .emptyRowRange ∧ s.cfg.wf = true ∧ s.initialized = true ∧
      (s.cfg.maxRows = 0 ∨ s.lineCount = 0) ∧
      ((∃ x y, i = .setCursor x y) ∨ ∃ x y c, i = .drawChar x y c))

/-- R20, R23, R33, R85: the writers of each register: only `begin` and `init` move `fsm_state`, from `Uninitialized` to
`Ready`, and write `initialized`, `function_bits`, `entry_mode_bits`, `row_offsets`, `line_count` and the directions;
only they, `on` and `off` write `control_bits`; no instruction writes the configuration or the inputs. -/
def Obligations.RegisterWriters : Prop :=
  ∀ (s t : State) (i : Instr), exec i s = .next t →
    t.cfg = s.cfg ∧ t.requests = s.requests ∧ t.internalOps = s.internalOps ∧
    (i.isBegin = false →
      t.fsmState = s.fsmState ∧ t.initialized = s.initialized ∧ t.functionBits = s.functionBits ∧
      t.entryModeBits = s.entryModeBits ∧ t.rowOffsets = s.rowOffsets ∧ t.lineCount = s.lineCount ∧ t.dir = s.dir ∧
      (i ≠ .on → i ≠ .off → t.controlBits = s.controlBits)) ∧
    (t.fsmState ≠ s.fsmState → s.fsmState = .uninitialized ∧ t.fsmState = .ready ∧ t.initialized = true)

/-! ## The platform side -/

/-- R121 to R123, R107: from a state that meets R34's invariant, every pin that a request's events name to the GPIO
collaborator is a valid index of the Pin Mapping Table, so no lookup fails. -/
def Obligations.RequestsResolveValidPins : Prop :=
  ∀ (s t : State) (i : Instr) es, s.Inv → i.isRequest = true → exec i s = .next t → t.trace = s.trace ++ es →
    ∀ e ∈ es, ∀ p, (e.call s.cfg).pin? = some p → resolve s.cfg p = .ok (Config.pinEntry p)

/-- R127, D18: the target of a delay is the least number of ticks that is at least the microseconds asked. -/
def Obligations.DelayTargetIsCeiling : Prop :=
  ∀ ticksPerMs us ticks : Nat, delayTarget ticksPerMs us ≤ ticks ↔ us * ticksPerMs ≤ 1000 * ticks

/-- R128: the delay algorithm never ends early, whatever the moments at which it samples the counter, wraps missed or
not: when it ends with the sample at tick `now`, at least the microseconds asked have passed since its first sample;
and when every two samples are less than a period apart, the ticks it has counted are exactly the ticks that passed.
The counter is that of R126. -/
def Obligations.DelayNeverEndsEarly : Prop :=
  ∀ (ticksPerMs us first now elapsed : Nat) (between : List Nat), 0 < ticksPerMs →
    (first :: (between ++ [now])).Pairwise (· ≤ ·) →
    delayMicroseconds ticksPerMs us (counterAt ticksPerMs first) (between.map (counterAt ticksPerMs)) = none →
    delayMicroseconds ticksPerMs us (counterAt ticksPerMs first) ((between ++ [now]).map (counterAt ticksPerMs)) =
      some elapsed →
    us * ticksPerMs ≤ 1000 * (now - first) ∧ elapsed ≤ now - first ∧
    ((first :: (between ++ [now])).IsChain (fun a b => b < a + ticksPerMs) → elapsed = now - first)

/-! ## The row table -/

/-- R28, R54, R96 (e): `set_cursor` and `draw_char` never read an entry of `row_offsets` at or past
`min(MAX_ROWS, line_count)`: another table that agrees below gives the same next state, but for the table; and in a state
that meets the invariant, with a row in range, the entry they read is in the table. -/
def Obligations.RowEntriesPastLastNeverRead : Prop :=
  ∀ (s : State) (i : Instr) (x y : Byte), i = .setCursor x y ∨ (∃ c, i = .drawChar x y c) →
    (∀ (t : State) rows, (∀ row, row < min s.cfg.maxRows s.lineCount.toNat → rows[row]? = s.rowOffsets[row]?) →
      exec i s = .next t → exec i { s with rowOffsets := rows } = .next { t with rowOffsets := rows }) ∧
    (s.Inv → min s.cfg.maxRows s.lineCount.toNat ≠ 0 →
      (s.rowOffsets[clampRow s.cfg s.lineCount y]?).isSome = true ∧
      clampRow s.cfg s.lineCount y < min s.cfg.maxRows s.lineCount.toNat)
end

