-- ==== Sys2Proof/Laws/State.lean ====
section
/-! SUPPORT. One lemma per field per update of the state, each true by rfl. -/

namespace Sys2Proof.Machine

/-! ## `emit` -/
section Emit
variable (s : State) (e : Event)
@[simp] theorem State.emit_cfg : (s.emit e).cfg = s.cfg := rfl
@[simp] theorem State.emit_fsmState : (s.emit e).fsmState = s.fsmState := rfl
@[simp] theorem State.emit_initialized : (s.emit e).initialized = s.initialized := rfl
@[simp] theorem State.emit_functionBits : (s.emit e).functionBits = s.functionBits := rfl
@[simp] theorem State.emit_controlBits : (s.emit e).controlBits = s.controlBits := rfl
@[simp] theorem State.emit_entryModeBits : (s.emit e).entryModeBits = s.entryModeBits := rfl
@[simp] theorem State.emit_rowOffsets : (s.emit e).rowOffsets = s.rowOffsets := rfl
@[simp] theorem State.emit_lineCount : (s.emit e).lineCount = s.lineCount := rfl
@[simp] theorem State.emit_dir : (s.emit e).dir = e.onDir s.dir := rfl
@[simp] theorem State.emit_level : (s.emit e).level = e.onLevel s.level := rfl
@[simp] theorem State.emit_trace : (s.emit e).trace = s.trace ++ [e] := rfl
@[simp] theorem State.emit_reports : (s.emit e).reports = s.reports := rfl
@[simp] theorem State.emit_requests : (s.emit e).requests = s.requests := rfl
@[simp] theorem State.emit_internalOps : (s.emit e).internalOps = s.internalOps := rfl
end Emit

/-! ## `report` -/
section Report
variable (s : State) (r : Report)
@[simp] theorem State.report_cfg : (s.report r).cfg = s.cfg := rfl
@[simp] theorem State.report_fsmState : (s.report r).fsmState = s.fsmState := rfl
@[simp] theorem State.report_initialized : (s.report r).initialized = s.initialized := rfl
@[simp] theorem State.report_functionBits : (s.report r).functionBits = s.functionBits := rfl
@[simp] theorem State.report_controlBits : (s.report r).controlBits = s.controlBits := rfl
@[simp] theorem State.report_entryModeBits : (s.report r).entryModeBits = s.entryModeBits := rfl
@[simp] theorem State.report_rowOffsets : (s.report r).rowOffsets = s.rowOffsets := rfl
@[simp] theorem State.report_lineCount : (s.report r).lineCount = s.lineCount := rfl
@[simp] theorem State.report_dir : (s.report r).dir = s.dir := rfl
@[simp] theorem State.report_level : (s.report r).level = s.level := rfl
@[simp] theorem State.report_trace : (s.report r).trace = s.trace := rfl
@[simp] theorem State.report_reports : (s.report r).reports = s.reports ++ [r] := rfl
@[simp] theorem State.report_requests : (s.report r).requests = s.requests := rfl
@[simp] theorem State.report_internalOps : (s.report r).internalOps = s.internalOps := rfl
end Report

/-! ## `moveTo` and `becomeReady` -/
section Fsm
variable (s : State) (f : FsmState)
@[simp] theorem moveTo_fsmState : (moveTo f s).fsmState = f := rfl
@[simp] theorem moveTo_cfg : (moveTo f s).cfg = s.cfg := rfl
@[simp] theorem moveTo_trace : (moveTo f s).trace = s.trace := rfl
@[simp] theorem moveTo_level : (moveTo f s).level = s.level := rfl
@[simp] theorem moveTo_dir : (moveTo f s).dir = s.dir := rfl
@[simp] theorem State.becomeReady_fsmState : s.becomeReady.fsmState = .ready := rfl
@[simp] theorem State.becomeReady_initialized : s.becomeReady.initialized = true := rfl
@[simp] theorem State.becomeReady_cfg : s.becomeReady.cfg = s.cfg := rfl
@[simp] theorem State.becomeReady_trace : s.becomeReady.trace = s.trace := rfl
@[simp] theorem State.becomeReady_level : s.becomeReady.level = s.level := rfl
@[simp] theorem State.becomeReady_dir : s.becomeReady.dir = s.dir := rfl
end Fsm

/-! ## Reset -/
section Reset
variable (c : Cfg)
@[simp] theorem State.resetWith_cfg : (State.resetWith c).cfg = c := rfl
@[simp] theorem State.resetWith_fsmState : (State.resetWith c).fsmState = .uninitialized := rfl
@[simp] theorem State.resetWith_initialized : (State.resetWith c).initialized = false := rfl
@[simp] theorem State.resetWith_functionBits : (State.resetWith c).functionBits = 0x00 := rfl
@[simp] theorem State.resetWith_trace : (State.resetWith c).trace = [] := rfl
@[simp] theorem State.resetWith_reports : (State.resetWith c).reports = [] := rfl
@[simp] theorem State.resetWith_requests : (State.resetWith c).requests = [] := rfl
@[simp] theorem State.resetWith_internalOps : (State.resetWith c).internalOps = [] := rfl
end Reset

end Sys2Proof.Machine
end

