-- ==== Sys2Proof/Laws/Ops.lean ====
section
/-! SUPPORT. For each shared operation, one lemma that says everything it does: an operation that emits is `emitAll` of a
list of events, and an admission answers one of its named outcomes. -/

namespace Sys2Proof.Machine

/-! ## Emission -/

@[simp] theorem State.emitAll_nil (s : State) : s.emitAll [] = s := rfl

theorem State.emitAll_cons (s : State) (e : Event) (es : List Event) :
    s.emitAll (e :: es) = (s.emit e).emitAll es := rfl

theorem State.emitAll_append (s : State) (es es' : List Event) :
    s.emitAll (es ++ es') = (s.emitAll es).emitAll es' := by
  simp [State.emitAll, List.foldl_append]

section After
variable (e : Event) (es es' : List Event) (d : Lines Direction) (v : Lines Level)
@[simp] theorem dirsAfter_nil : dirsAfter [] d = d := rfl
@[simp] theorem dirsAfter_cons : dirsAfter (e :: es) d = dirsAfter es (e.onDir d) := rfl
@[simp] theorem dirsAfter_append : dirsAfter (es ++ es') d = dirsAfter es' (dirsAfter es d) := List.foldl_append
@[simp] theorem levelsAfter_nil : levelsAfter [] v = v := rfl
@[simp] theorem levelsAfter_cons : levelsAfter (e :: es) v = levelsAfter es (e.onLevel v) := rfl
@[simp] theorem levelsAfter_append : levelsAfter (es ++ es') v = levelsAfter es' (levelsAfter es v) := List.foldl_append
variable (l : Line) (m : Direction) (a : Level) (n : Micros)
@[simp] theorem onDir_dir : (Event.dir l m).onDir d = d.set l m := rfl
@[simp] theorem onDir_drive : (Event.drive l a).onDir d = d := rfl
@[simp] theorem onDir_wait : (Event.wait n).onDir d = d := rfl
@[simp] theorem onLevel_dir : (Event.dir l m).onLevel v = v := rfl
@[simp] theorem onLevel_drive : (Event.drive l a).onLevel v = v.set l a := rfl
@[simp] theorem onLevel_wait : (Event.wait n).onLevel v = v := rfl
end After

/-- Emitting changes directions, levels and the trace, and nothing else. -/
theorem State.emitAll_eq (s : State) (es : List Event) :
    s.emitAll es =
      { s with
        dir := dirsAfter es s.dir
        level := levelsAfter es s.level
        trace := s.trace ++ es } := by
  induction es generalizing s with
  | nil => simp
  | cons e es ih => rw [State.emitAll_cons, ih]; simp [State.emit]

section Fields
variable (s : State) (es : List Event)
@[simp] theorem State.emitAll_cfg : (s.emitAll es).cfg = s.cfg := by rw [State.emitAll_eq]
@[simp] theorem State.emitAll_fsmState : (s.emitAll es).fsmState = s.fsmState := by rw [State.emitAll_eq]
@[simp] theorem State.emitAll_initialized : (s.emitAll es).initialized = s.initialized := by rw [State.emitAll_eq]
@[simp] theorem State.emitAll_functionBits : (s.emitAll es).functionBits = s.functionBits := by rw [State.emitAll_eq]
@[simp] theorem State.emitAll_controlBits : (s.emitAll es).controlBits = s.controlBits := by rw [State.emitAll_eq]
@[simp] theorem State.emitAll_entryModeBits : (s.emitAll es).entryModeBits = s.entryModeBits := by
  rw [State.emitAll_eq]
@[simp] theorem State.emitAll_rowOffsets : (s.emitAll es).rowOffsets = s.rowOffsets := by rw [State.emitAll_eq]
@[simp] theorem State.emitAll_lineCount : (s.emitAll es).lineCount = s.lineCount := by rw [State.emitAll_eq]
@[simp] theorem State.emitAll_trace : (s.emitAll es).trace = s.trace ++ es := by rw [State.emitAll_eq]
@[simp] theorem State.emitAll_reports : (s.emitAll es).reports = s.reports := by rw [State.emitAll_eq]
@[simp] theorem State.emitAll_requests : (s.emitAll es).requests = s.requests := by rw [State.emitAll_eq]
@[simp] theorem State.emitAll_internalOps : (s.emitAll es).internalOps = s.internalOps := by rw [State.emitAll_eq]
theorem State.emitAll_dir : (s.emitAll es).dir = dirsAfter es s.dir := by rw [State.emitAll_eq]
theorem State.emitAll_level : (s.emitAll es).level = levelsAfter es s.level := by
  rw [State.emitAll_eq]
end Fields

/-! ## Nibbles -/

theorem highNibble_bits (v : Byte) :
    (highNibble v).getLsbD 0 = v.getLsbD 4 ∧ (highNibble v).getLsbD 1 = v.getLsbD 5 ∧
      (highNibble v).getLsbD 2 = v.getLsbD 6 ∧ (highNibble v).getLsbD 3 = v.getLsbD 7 := by
  simp [highNibble]

theorem lowNibble_bits (v : Byte) :
    (lowNibble v).getLsbD 0 = v.getLsbD 0 ∧ (lowNibble v).getLsbD 1 = v.getLsbD 1 ∧
      (lowNibble v).getLsbD 2 = v.getLsbD 2 ∧ (lowNibble v).getLsbD 3 = v.getLsbD 3 := by
  revert v; decide

theorem nibbleEvents_eq_specNibOf (c : Cfg) (v : Byte) : nibbleEvents c v = specNibOf c v := rfl

theorem nibbleEvents_highNibble (c : Cfg) (v : Byte) :
    nibbleEvents c (highNibble v) = specNib c (v.getLsbD 7) (v.getLsbD 6) (v.getLsbD 5) (v.getLsbD 4) := by
  obtain ⟨h0, h1, h2, h3⟩ := highNibble_bits v
  simp only [nibbleEvents, specNib, h0, h1, h2, h3]; rfl

theorem nibbleEvents_lowNibble (c : Cfg) (v : Byte) : nibbleEvents c (lowNibble v) = specNibOf c v := by
  obtain ⟨h0, h1, h2, h3⟩ := lowNibble_bits v
  simp only [nibbleEvents, specNibOf, specNib, h0, h1, h2, h3]; rfl

/-! ## Micro-operations -/

/-- Everything `write_nibble` does. -/
theorem writeNibble_eq (v : Byte) (s : State) : writeNibble v s = s.emitAll (specNibOf s.cfg v) := rfl

/-- Everything `send` does. -/
theorem send_eq (v : Byte) (m : Mode) (s : State) : send v m s = s.emitAll (specByte s.cfg v m) := by
  simp only [send, selectMode, writeNibble, State.emitAll_cfg, nibbleEvents_highNibble, nibbleEvents_lowNibble,
    ← State.emitAll_append]
  cases m <;> simp [specByte, specNibOf, ifRw, modeLevel]

/-- Everything `command` does. -/
theorem command_eq (v : Byte) (s : State) : command v s = s.emitAll (specByte s.cfg v .command) := send_eq v .command s

/-- Everything the body of `clear` does. -/
theorem clearBody_eq (s : State) :
    clearBody s = s.emitAll (specByte s.cfg s.cfg.cmdClearDisplay .command ++ [.wait s.cfg.tClear]) := by
  rw [clearBody, command_eq, State.emitAll_append]; rfl

/-- Everything the body of `set_cursor` does. -/
theorem setCursorBody_eq (x y : Byte) (s : State) :
    setCursorBody x y s =
      s.emitAll (specByte s.cfg (setDdramAddrByte s.cfg (ddramOperand s x y)) .command) := command_eq _ s

/-- Everything the body of `draw_string` does. -/
theorem drawStringBody_eq (cs : List Byte) (s : State) : drawStringBody cs s = s.emitAll (specString s.cfg cs) := by
  induction cs generalizing s with
  | nil => rfl
  | cons c cs ih => simp [drawStringBody, ih, send_eq, specString, State.emitAll_append]

/-! ## The row table -/

@[simp] theorem rowOffsetsFor_length (c : Cfg) (columns : Byte) : (rowOffsetsFor c columns).length = c.maxRows := by
  simp [rowOffsetsFor]

/-- Every entry of the table `begin` fills. -/
theorem rowOffsetsFor_getElem? (c : Cfg) (columns : Byte) {row : Nat} (h : row < c.maxRows) :
    (rowOffsetsFor c columns)[row]? = some (rowOffsetFor c columns row) := by
  simp [rowOffsetsFor, h]

/-- The table of this hardware (R28). -/
theorem rowOffsetsFor_four {c : Cfg} (h : c.maxRows = 4) (columns : Byte) :
    rowOffsetsFor c columns =
      [c.rowBaseEven, c.rowBaseOdd, c.rowBaseEven + columns, c.rowBaseOdd + columns] := by
  rw [rowOffsetsFor, h]; rfl

/-- No row is in range exactly when `MAX_ROWS` or `line_count` is 0. -/
theorem usableRows_eq_zero (c : Cfg) (lineCount : Byte) :
    usableRows c lineCount = 0 ↔ c.maxRows = 0 ∨ lineCount = 0 := by
  have h : lineCount.toNat = 0 ↔ lineCount = 0 := by simp [← BitVec.toNat_inj]
  unfold usableRows; rw [← h]; omega

/-- The clamped row is below `min(MAX_ROWS, line_count)` (R54). -/
theorem clampRow_lt {c : Cfg} {lineCount : Byte} (h : usableRows c lineCount ≠ 0) (y : Byte) :
    clampRow c lineCount y < usableRows c lineCount := by
  unfold clampRow topRow; omega

/-- The clamped row as R96 writes it. -/
theorem clampRow_eq (c : Cfg) (lineCount y : Byte) :
    clampRow c lineCount y = if topRow c lineCount < y.toNat then topRow c lineCount else y.toNat := by
  unfold clampRow; split <;> omega

/-- A read of an entry the table has. -/
theorem State.rowOffset_of_some {s : State} {row : Nat} {offset : Byte} (h : s.rowOffsets[row]? = some offset) :
    s.rowOffset row = offset := by rw [State.rowOffset, h]; rfl

/-! ## Levels and directions left by the event lists -/

@[simp] theorem levelsAfter_specNibOf (c : Cfg) (v : Byte) (l : Lines Level) :
    levelsAfter (specNibOf c v) l = levelsAfterNibble v l := rfl

@[simp] theorem dirsAfter_specNibOf (c : Cfg) (v : Byte) (d : Lines Direction) : dirsAfter (specNibOf c v) d = d := rfl

@[simp] theorem levelsAfter_specByte (c : Cfg) (v : Byte) (m : Mode) (l : Lines Level) :
    levelsAfter (specByte c v m) l = levelsAfterByte c v m l := by
  cases hc : c.rwPresent <;> simp only [specByte, levelsAfterByte, hc] <;> rfl

@[simp] theorem dirsAfter_specByte (c : Cfg) (v : Byte) (m : Mode) (d : Lines Direction) :
    dirsAfter (specByte c v m) d = d := by
  cases hc : c.rwPresent <;> simp only [specByte, hc] <;> rfl

/-- A byte transfer sets every level but, where the line does not exist, that of RW. -/
@[simp] theorem levelsAfterByte_again (c : Cfg) (v v' : Byte) (m m' : Mode) (l : Lines Level) :
    levelsAfterByte c v m (levelsAfterByte c v' m' l) = levelsAfterByte c v m l := by
  cases hc : c.rwPresent <;> simp [levelsAfterByte, levelsAfterNibble, hc]

@[simp] theorem levelsAfter_specString (c : Cfg) (cs : List Byte) (l : Lines Level) :
    levelsAfter (specString c cs) l = levelsAfterString c cs l := by
  induction cs generalizing l with
  | nil => rfl
  | cons ch cs ih =>
    have step := ih (levelsAfterByte c ch .data l)
    simp only [specString, List.flatMap_cons, levelsAfter_append, levelsAfter_specByte] at step ⊢
    rw [step]
    cases cs with
    | nil => rfl
    | cons ch' cs => simp [levelsAfterString, List.getLast?_cons]

@[simp] theorem dirsAfter_specString (c : Cfg) (cs : List Byte) (d : Lines Direction) :
    dirsAfter (specString c cs) d = d := by
  induction cs with
  | nil => rfl
  | cons ch cs ih => simpa [specString] using ih

/-! ## `begin` -/

/-- The levels `begin` leaves: those of its last byte. -/
theorem levelsAfter_specBegin (c : Cfg) (fb : Byte) (l : Lines Level) :
    levelsAfter (specBegin c fb) l = levelsAfterByte c (c.cmdEntryModeSet ||| c.emLeft) .command l := by
  cases hc : c.rwPresent <;> simp [specBegin, hc, levelsAfterByte, levelsAfterNibble, Lines.set]

/-- The directions `begin` leaves: every existing line an output. -/
theorem dirsAfter_specBegin (c : Cfg) (fb : Byte) (d : Lines Direction) :
    dirsAfter (specBegin c fb) d = allOutputs c d := by
  cases hc : c.rwPresent <;> simp [specBegin, hc, allOutputs, Lines.set]

/-- Everything the body of `begin` does: five register writes, then its events. -/
theorem beginBody_eq (columns lines : Byte) (charsize : Font) (s : State) :
    beginBody columns lines charsize s =
      ({ s with
          fsmState := .ready
          initialized := true
          functionBits := withFontBit s.cfg lines charsize (withTwoLineBit s.cfg lines s.functionBits)
          controlBits := s.cfg.ctDisplayOn
          entryModeBits := s.cfg.emLeft
          rowOffsets := rowOffsetsFor s.cfg columns
          lineCount := lines } : State).emitAll
        (specBegin s.cfg (withFontBit s.cfg lines charsize (withTwoLineBit s.cfg lines s.functionBits))) := by
  simp only [beginBody, beginStep1, beginStep1b, beginStep2, beginStep3, moveTo, beginStep4, beginStep5, beginStep6,
    handshakeNibble, wait, beginStep7, beginStep8, beginStep9, beginStep10, State.becomeReady, writeNibble_eq,
    command_eq, clearBody_eq, State.emitAll_eq, State.emit, initialControlBits, initialEntryModeBits,
    functionSetByte, displayControlByte, entryModeSetByte, specBegin, ifRw, dirsAfter_append, dirsAfter_cons,
    dirsAfter_nil, levelsAfter_append, levelsAfter_cons, levelsAfter_nil, onDir_wait, onLevel_wait,
    List.append_assoc]
  rfl

/-! ## Outcomes of the admissions -/

/-- No pin is invalid exactly when every pin in use is an index of the table. -/
theorem firstInvalidPin_eq_none (c : Cfg) : firstInvalidPin c = none ↔ ∀ p ∈ c.pinList, p < c.pinTableSize := by
  simp [firstInvalidPin, List.find?_eq_none]

/-- Everything `admitBegin` can answer (R87, R113). -/
theorem admitBegin_cases (s : State) (body : State → State) :
    (s.cfg.wf = false ∧ admitBegin s body = .refused .illFormedConfig) ∨
    (s.cfg.wf = true ∧ s.fsmState ≠ .uninitialized ∧ admitBegin s body = .refused .secondBegin) ∨
    (∃ pin, s.cfg.wf = true ∧ s.fsmState = .uninitialized ∧ firstInvalidPin s.cfg = some pin ∧
      admitBegin s body = .next (s.report (.invalidPin pin))) ∨
    (s.cfg.wf = true ∧ s.fsmState = .uninitialized ∧ firstInvalidPin s.cfg = none ∧
      admitBegin s body = .next ((body s).report .completed)) := by
  unfold admitBegin underWfConfig
  cases hw : s.cfg.wf
  · simp
  · by_cases hf : s.fsmState = .uninitialized
    · cases hp : firstInvalidPin s.cfg <;> simp [hf, hp, raise, complete]
    · simp [hf]

/-- Everything `whenInitialized` can answer (R95, R106, R113). -/
theorem whenInitialized_cases (s : State) (body : State → Host.Outcome State Fault Refusal) :
    (s.cfg.wf = false ∧ whenInitialized s body = .refused .illFormedConfig) ∨
    (s.cfg.wf = true ∧ s.initialized = false ∧ whenInitialized s body = .next (s.report .notInitialized)) ∨
    (s.cfg.wf = true ∧ s.initialized = true ∧ whenInitialized s body = body s) := by
  unfold whenInitialized underWfConfig
  cases hw : s.cfg.wf <;> cases hi : s.initialized <;> simp [hi, raise]

/-- Everything `whenRowsExist` can answer (R96, R110 (b)). -/
theorem whenRowsExist_cases (s : State) (body : State → State) :
    (usableRows s.cfg s.lineCount = 0 ∧ whenRowsExist s body = .refused .emptyRowRange) ∨
    (usableRows s.cfg s.lineCount ≠ 0 ∧ whenRowsExist s body = .next ((body s).report .completed)) := by
  unfold whenRowsExist
  by_cases h : usableRows s.cfg s.lineCount = 0
  · exact .inl ⟨h, if_pos h⟩
  · exact .inr ⟨h, if_neg h⟩

/-- Everything `internally` can answer. -/
theorem internally_cases (s : State) (body : State → State) :
    (s.cfg.wf = false ∧ internally s body = .refused .illFormedConfig) ∨
    (s.cfg.wf = true ∧ internally s body = .next (body s)) := by
  unfold internally underWfConfig
  cases hw : s.cfg.wf <;> simp

end Sys2Proof.Machine
end

