-- ==== Sys2Proof/Laws/Bus.lean ====
section
/-! SUPPORT. The pulses of the spec's event lists: one per nibble, two per byte. -/

namespace Sys2Proof.Machine

/-- The four data lines hold the low four bits of a byte after its nibble. -/
theorem lineContent_nibble (rwPresent : Bool) (v : Byte) (l : Lines Level) :
    lineContent rwPresent { levelsAfterNibble v l with e := .high } =
      ⟨l.rs, if rwPresent then some l.rw else none, v.extractLsb' 0 4⟩ := by
  have bits : ∀ v : Byte, BitVec.ofBool (levelBit (lvl (v.getLsbD 3))) ++ BitVec.ofBool (levelBit (lvl (v.getLsbD 2))) ++
      BitVec.ofBool (levelBit (lvl (v.getLsbD 1))) ++ BitVec.ofBool (levelBit (lvl (v.getLsbD 0))) =
        v.extractLsb' 0 4 := by decide
  simp only [lineContent, levelsAfterNibble]
  rw [← bits v]

/-- The pulses of a nibble and of what follows it. -/
theorem pulsesFrom_specNibOf (rwPresent : Bool) (c : Cfg) (v : Byte) (l : Lines Level) (es : List Event) :
    pulsesFrom rwPresent l (specNibOf c v ++ es) =
      ⟨⟨l.rs, if rwPresent then some l.rw else none, v.extractLsb' 0 4⟩, c.tSettle :: leadingWaits es⟩ ::
        pulsesFrom rwPresent (levelsAfterNibble v l) es := by
  rw [← lineContent_nibble]; rfl

/-- The two halves of a byte as nibbles. -/
theorem specByte_eq (c : Cfg) (v : Byte) (m : Mode) :
    specByte c v m =
      .drive .rs (modeLevel m) :: (ifRw c (.drive .rw .low) ++ (specNibOf c (highNibble v) ++ specNibOf c v)) := by
  have h := nibbleEvents_highNibble c v
  rw [nibbleEvents_eq_specNibOf] at h
  rw [h]
  cases m <;> simp [specByte, specNibOf, ifRw, modeLevel]

/-- The two pulses of a byte and those of what follows it. -/
theorem pulsesFrom_specByte (c : Cfg) (v : Byte) (m : Mode) (l : Lines Level) (es : List Event) :
    pulsesFrom c.rwPresent l (specByte c v m ++ es) =
      ⟨⟨modeLevel m, if c.rwPresent then some .low else none, v.extractLsb' 4 4⟩, [c.tSettle]⟩ ::
      ⟨⟨modeLevel m, if c.rwPresent then some .low else none, v.extractLsb' 0 4⟩, c.tSettle :: leadingWaits es⟩ ::
        pulsesFrom c.rwPresent (levelsAfterByte c v m l) es := by
  have hn : (highNibble v).extractLsb' 0 4 = v.extractLsb' 4 4 := by revert v; decide
  rw [specByte_eq]
  simp only [List.cons_append, List.append_assoc]
  cases hc : c.rwPresent
  · simp only [ifRw, hc, pulsesFrom, Event.onLevel, Lines.set, pulsesFrom_specNibOf, reduceCtorEq, Event.drive.injEq,
      false_and, if_false, List.nil_append, Bool.false_eq_true, hn]
    cases m <;> simp [levelsAfterByte, levelsAfterNibble, hc, modeLevel] <;> rfl
  · simp only [ifRw, hc, pulsesFrom, Event.onLevel, Lines.set, pulsesFrom_specNibOf, reduceCtorEq, Event.drive.injEq,
      false_and, if_false, if_true, List.cons_append, List.nil_append, hn]
    cases m <;> simp [levelsAfterByte, levelsAfterNibble, hc, modeLevel] <;> rfl

/-- An event that does not raise E starts no pulse. -/
theorem pulsesFrom_skip (rwPresent : Bool) (l : Lines Level) {e : Event} (es : List Event) (h : e ≠ .drive .e .high) :
    pulsesFrom rwPresent l (e :: es) = pulsesFrom rwPresent (e.onLevel l) es := by
  rw [pulsesFrom, if_neg h]

@[simp] theorem pulsesFrom_nil (rwPresent : Bool) (l : Lines Level) : pulsesFrom rwPresent l [] = [] := rfl
@[simp] theorem pulsesFrom_wait (rwPresent : Bool) (l : Lines Level) (n : Micros) (es : List Event) :
    pulsesFrom rwPresent l (.wait n :: es) = pulsesFrom rwPresent l es := pulsesFrom_skip _ _ _ (by simp)

@[simp] theorem leadingWaits_nil : leadingWaits [] = [] := rfl
@[simp] theorem leadingWaits_wait (n : Micros) (es : List Event) : leadingWaits (.wait n :: es) = n :: leadingWaits es :=
  rfl
@[simp] theorem leadingWaits_specNibOf (c : Cfg) (v : Byte) (es : List Event) :
    leadingWaits (specNibOf c v ++ es) = [] := rfl
@[simp] theorem leadingWaits_specByte (c : Cfg) (v : Byte) (m : Mode) (es : List Event) :
    leadingWaits (specByte c v m ++ es) = [] := by rw [specByte_eq]; rfl

/-- Steps 4 and 5 of `begin` make no pulse and leave RS Low, and RW Low where it exists. -/
theorem pulsesFrom_begin_start (c : Cfg) (bits : Byte) (l : Lines Level) :
    ∃ l' : Lines Level, l'.rs = .low ∧ (c.rwPresent = true → l'.rw = .low) ∧
      pulsesFrom c.rwPresent l (specBegin c bits) = pulsesFrom c.rwPresent l'
        (specNibOf c c.hsNibbleA ++ (.wait c.tHs1 :: (specNibOf c c.hsNibbleA ++ (.wait c.tHs2 ::
          (specNibOf c c.hsNibbleA ++ (.wait c.tHs3 :: (specNibOf c c.hsNibbleB ++
            (specByte c (c.cmdFunctionSet ||| bits) .command ++
              (specByte c (c.cmdDisplayControl ||| c.ctDisplayOn) .command ++
                (specByte c c.cmdClearDisplay .command ++ (.wait c.tClear ::
                  (specByte c (c.cmdEntryModeSet ||| c.emLeft) .command ++ [])))))))))))) := by
  refine ⟨{ l with rs := .low, rw := if c.rwPresent then .low else l.rw, e := .low }, rfl, fun h => if_pos h, ?_⟩
  cases hc : c.rwPresent <;> simp [specBegin, hc, pulsesFrom_skip, Lines.set]

/-- The twelve pulses of `begin`: four nibbles and four bytes, all in command mode. -/
theorem pulsesFrom_specBegin (c : Cfg) (bits : Byte) (l : Lines Level) :
    pulsesFrom c.rwPresent l (specBegin c bits) =
      (let rw : Option Level := if c.rwPresent then some .low else none
       let nibble (v : Byte) (waits : List Micros) : Pulse := ⟨⟨.low, rw, v.extractLsb' 0 4⟩, c.tSettle :: waits⟩
       let byte (v : Byte) (waits : List Micros) : List Pulse :=
         [⟨⟨.low, rw, v.extractLsb' 4 4⟩, [c.tSettle]⟩, ⟨⟨.low, rw, v.extractLsb' 0 4⟩, c.tSettle :: waits⟩]
       [nibble c.hsNibbleA [c.tHs1], nibble c.hsNibbleA [c.tHs2], nibble c.hsNibbleA [c.tHs3], nibble c.hsNibbleB []] ++
         byte (c.cmdFunctionSet ||| bits) [] ++ byte (c.cmdDisplayControl ||| c.ctDisplayOn) [] ++
         byte c.cmdClearDisplay [c.tClear] ++ byte (c.cmdEntryModeSet ||| c.emLeft) []) := by
  obtain ⟨l', hrs, hrw, h⟩ := pulsesFrom_begin_start c bits l
  have rwLow : (if c.rwPresent then some l'.rw else none) = if c.rwPresent then some Level.low else none := by
    split
    · rw [hrw ‹_›]
    · rfl
  simp only [h, pulsesFrom_wait, pulsesFrom_nil, pulsesFrom_specNibOf, pulsesFrom_specByte, leadingWaits_specNibOf,
    leadingWaits_specByte, leadingWaits_wait, leadingWaits_nil, levelsAfterNibble, hrs, rwLow, modeLevel]
  rfl

end Sys2Proof.Machine
end

