-- ==== Sys2Proof/Laws/Exec.lean ====
section
/-! SUPPORT. What an instruction and a step can do, said once: the events an operation may emit, and the cases of a next
state of `exec` and of `step`. -/

namespace Sys2Proof.Machine

/-! ## Traffic -/

/-- What every operation but `begin` emits: nibbles, byte transfers and the wait after a clear, in any number. -/
inductive Traffic (c : Cfg) : List Event → Prop where
  | nothing : Traffic c []
  | nibble (v : Byte) : Traffic c (specNibOf c v)
  | byte (v : Byte) (m : Mode) : Traffic c (specByte c v m)
  | clearWait : Traffic c [.wait c.tClear]
  | both {es es' : List Event} : Traffic c es → Traffic c es' → Traffic c (es ++ es')

theorem Traffic.string (c : Cfg) (cs : List Byte) : Traffic c (specString c cs) := by
  induction cs with
  | nil => exact .nothing
  | cons ch cs ih => simpa [specString] using Traffic.both (.byte ch .data) ih

theorem Traffic.dirs {c : Cfg} {es : List Event} (h : Traffic c es) (d : Lines Direction) : dirsAfter es d = d := by
  induction h generalizing d with
  | nothing => rfl
  | nibble v => rfl
  | byte v m => simp
  | clearWait => rfl
  | both _ _ ih ih' => simp [ih, ih']

/-- Traffic keeps E Low at its end, and RW Low where the line exists. -/
theorem Traffic.low {c : Cfg} {es : List Event} (h : Traffic c es) (v : Lines Level) (he : v.e = .low)
    (hrw : c.rwPresent = true → v.rw = .low) :
    (levelsAfter es v).e = .low ∧ (c.rwPresent = true → (levelsAfter es v).rw = .low) := by
  induction h generalizing v with
  | nothing => exact ⟨he, hrw⟩
  | nibble w => exact ⟨rfl, hrw⟩
  | byte w m => simp +contextual [levelsAfterByte, levelsAfterNibble]
  | clearWait => exact ⟨he, hrw⟩
  | both _ _ ih ih' =>
    obtain ⟨h1, h2⟩ := ih v he hrw
    simpa using ih' _ h1 h2

/-! ## The next states of `exec` -/

/-- A request ended with an error: nothing but the report. -/
def Raised (s t : State) : Prop := ∃ r, r ≠ .completed ∧ t = s.report r

/-- `begin` or `init` completed. -/
def Begun (s t : State) : Prop :=
  s.cfg.wf = true ∧ s.fsmState = .uninitialized ∧ firstInvalidPin s.cfg = none ∧
    ∃ columns lines charsize, t = (beginBody columns lines charsize s).report .completed

/-- An operating command completed: traffic, and for `on` and `off` the display bit. -/
def Operated (s t : State) : Prop :=
  s.cfg.wf = true ∧ s.initialized = true ∧
    ∃ bits es, (bits = s.controlBits ∨ bits = withDisplayOn s.cfg s.controlBits ∨
        bits = withDisplayOff s.cfg s.controlBits) ∧
      Traffic s.cfg es ∧ t = (State.emitAll { s with controlBits := bits } es).report .completed

/-- An internal operation ran: traffic only. -/
def RanInternally (s t : State) : Prop := s.cfg.wf = true ∧ ∃ es, Traffic s.cfg es ∧ t = s.emitAll es

theorem admitBegin_next {s t : State} {columns lines : Byte} {charsize : Font}
    (h : admitBegin s (beginBody columns lines charsize) = .next t) : Raised s t ∨ Begun s t := by
  rcases admitBegin_cases s (beginBody columns lines charsize) with
    ⟨_, h'⟩ | ⟨_, _, h'⟩ | ⟨pin, _, _, _, h'⟩ | ⟨hw, hf, hp, h'⟩ <;> rw [h'] at h <;> cases h
  · exact .inl ⟨.invalidPin pin, by simp, rfl⟩
  · exact .inr ⟨hw, hf, hp, columns, lines, charsize, rfl⟩

/-- The shape shared by the operating commands. -/
theorem whenInitialized_next {s t : State} {body : State → Host.Outcome State Fault Refusal}
    (h : whenInitialized s body = .next t) :
    Raised s t ∨ (s.cfg.wf = true ∧ s.initialized = true ∧ body s = .next t) := by
  rcases whenInitialized_cases s body with ⟨_, h'⟩ | ⟨_, _, h'⟩ | ⟨hw, hi, h'⟩ <;> rw [h'] at h
  · cases h
  · cases h; exact .inl ⟨.notInitialized, by simp, rfl⟩
  · exact .inr ⟨hw, hi, h⟩

theorem whenRowsExist_next {s t : State} {body : State → State} (h : whenRowsExist s body = .next t) :
    t = (body s).report .completed := by
  rcases whenRowsExist_cases s body with ⟨_, h'⟩ | ⟨_, h'⟩ <;> rw [h'] at h <;> cases h
  rfl

theorem internally_next {s t : State} {body : State → State} (h : internally s body = .next t) :
    s.cfg.wf = true ∧ t = body s := by
  rcases internally_cases s body with ⟨_, h'⟩ | ⟨hw, h'⟩ <;> rw [h'] at h <;> cases h
  exact ⟨hw, rfl⟩

/-- A command that keeps `control_bits` and emits the traffic `es`. -/
theorem Operated.plain {s t : State} {es : List Event} (hw : s.cfg.wf = true) (hi : s.initialized = true)
    (he : Traffic s.cfg es) (ht : t = (s.emitAll es).report .completed) : Operated s t :=
  ⟨hw, hi, s.controlBits, es, .inl rfl, he, ht⟩

/-- What an operating command can do (R95 to R101). -/
theorem exec_operating_next {i : Instr} {s t : State} (hi : i.isOperating = true) (h : exec i s = .next t) :
    Raised s t ∨ Operated s t := by
  cases i with
  | setCursor x y =>
    simp only [exec, execSetCursor] at h
    refine (whenInitialized_next h).imp_right fun ⟨hw, hin, hb⟩ => ?_
    exact .plain hw hin (.byte _ _) ((whenRowsExist_next hb).trans (by rw [setCursorBody_eq]))
  | drawChar x y c =>
    simp only [exec, execDrawChar] at h
    refine (whenInitialized_next h).imp_right fun ⟨hw, hin, hb⟩ => ?_
    refine .plain hw hin (.both (.byte (setDdramAddrByte s.cfg (ddramOperand s x y)) .command) (.byte c .data)) ((whenRowsExist_next hb).trans ?_)
    rw [setCursorBody_eq, send_eq, State.emitAll_append, State.emitAll_cfg]
  | drawString cs =>
    simp only [exec, execDrawString] at h
    refine (whenInitialized_next h).imp_right fun ⟨hw, hin, hb⟩ => ?_
    cases hb
    exact .plain hw hin (.string _ cs) (by rw [drawStringBody_eq])
  | clear =>
    simp only [exec, execClear] at h
    refine (whenInitialized_next h).imp_right fun ⟨hw, hin, hb⟩ => ?_
    cases hb
    exact .plain hw hin (.both (.byte _ _) .clearWait) (by rw [clearBody_eq])
  | on =>
    simp only [exec, execOn] at h
    refine (whenInitialized_next h).imp_right fun ⟨hw, hin, hb⟩ => ?_
    cases hb
    exact ⟨hw, hin, _, _, .inr (.inl rfl), .byte _ _, by rw [reissueDisplayControl, command_eq]⟩
  | off =>
    simp only [exec, execOff] at h
    refine (whenInitialized_next h).imp_right fun ⟨hw, hin, hb⟩ => ?_
    cases hb
    exact ⟨hw, hin, _, _, .inr (.inr rfl), .byte _ _, by rw [reissueDisplayControl, command_eq]⟩
  | _ => cases hi

/-- What a micro-operation or a bus word can do (R80 to R83, R63 to R70). -/
theorem exec_internal_next {i : Instr} {s t : State} (hi : i.isRequest = false) (h : exec i s = .next t) :
    RanInternally s t := by
  cases i with
  | writeNibble value =>
    obtain ⟨hw, rfl⟩ := internally_next h; exact ⟨hw, _, .nibble value, rfl⟩
  | send value mode =>
    obtain ⟨hw, rfl⟩ := internally_next h; exact ⟨hw, _, .byte value mode, send_eq _ _ _⟩
  | command value =>
    obtain ⟨hw, rfl⟩ := internally_next h; exact ⟨hw, _, .byte value .command, command_eq _ _⟩
  | hs3 => obtain ⟨hw, rfl⟩ := internally_next h; exact ⟨hw, _, .nibble _, rfl⟩
  | hs2 => obtain ⟨hw, rfl⟩ := internally_next h; exact ⟨hw, _, .nibble _, rfl⟩
  | functionset w n f =>
    obtain ⟨hw, rfl⟩ := internally_next h; exact ⟨hw, _, .byte _ .command, command_eq _ _⟩
  | displaycontrol d c b =>
    obtain ⟨hw, rfl⟩ := internally_next h; exact ⟨hw, _, .byte _ .command, command_eq _ _⟩
  | cleardisplay =>
    obtain ⟨hw, rfl⟩ := internally_next h; exact ⟨hw, _, .both (.byte _ _) .clearWait, clearBody_eq _⟩
  | entrymodeset left shift =>
    obtain ⟨hw, rfl⟩ := internally_next h; exact ⟨hw, _, .byte _ .command, command_eq _ _⟩
  | setddramaddr a =>
    obtain ⟨hw, rfl⟩ := internally_next h; exact ⟨hw, _, .byte _ .command, command_eq _ _⟩
  | datawrite c =>
    obtain ⟨hw, rfl⟩ := internally_next h; exact ⟨hw, _, .byte c .data, send_eq _ _ _⟩
  | _ => cases hi

/-- Everything a next state of `exec` can be. -/
theorem exec_next_cases {i : Instr} {s t : State} (h : exec i s = .next t) :
    (i.isRequest = true ∧ Raised s t) ∨ (i.isBegin = true ∧ Begun s t) ∨ (i.isOperating = true ∧ Operated s t) ∨
      (i.isRequest = false ∧ RanInternally s t) := by
  by_cases hr : i.isRequest = true
  · by_cases ho : i.isOperating = true
    · rcases exec_operating_next ho h with h | h
      · exact .inl ⟨hr, h⟩
      · exact .inr (.inr (.inl ⟨ho, h⟩))
    · cases i with
      | init => exact (admitBegin_next h).elim (fun h => .inl ⟨rfl, h⟩) fun h => .inr (.inl ⟨rfl, h⟩)
      | begin columns lines charsize =>
        exact (admitBegin_next h).elim (fun h => .inl ⟨rfl, h⟩) fun h => .inr (.inl ⟨rfl, h⟩)
      | reservedRequest b => cases h; exact .inl ⟨rfl, .illegalRequest b, by simp, rfl⟩
      | _ => first | exact absurd hr Bool.false_ne_true | exact absurd rfl ho
  · exact .inr (.inr (.inr ⟨by simpa using hr, exec_internal_next (by simpa using hr) h⟩))

/-! ## The next states of `step` -/

/-- The state after a fetch: only the inputs differ. -/
def Fetches (s s' : State) : Prop :=
  s' = { s with requests := s'.requests, internalOps := s'.internalOps }

/-- Everything a next state of `step` can be: idle, an instruction, or an illegal request. -/
theorem step_next_cases {s t : State} (h : step s = .next t) :
    t = s ∨ (∃ i s', Fetches s s' ∧ exec i s' = .next t) ∨
      (∃ b s', Fetches s s' ∧ t = s'.report (.illegalRequest b)) := by
  unfold step fetch at h
  split at h
  · split at h
    · refine .inr (.inl ⟨_, _, ?_, h⟩); rfl
    · cases h
  · split at h
    · refine .inr (.inl ⟨_, _, ?_, h⟩); rfl
    · cases h; refine .inr (.inr ⟨_, _, ?_, rfl⟩); rfl
    · cases h; exact .inl rfl

/-- A property that no input affects, that raising keeps, and that every instruction keeps, is kept by every step. -/
theorem step_keeps {P : State → Prop} (hin : ∀ s s', Fetches s s' → P s → P s')
    (hex : ∀ i s t, exec i s = .next t → P s → P t) (hrep : ∀ s r, P s → P (s.report r)) {s t : State}
    (h : step s = .next t) (hp : P s) : P t := by
  rcases step_next_cases h with rfl | ⟨i, s', hf, he⟩ | ⟨b, s', hf, rfl⟩
  · exact hp
  · exact hex i s' t he (hin s s' hf hp)
  · exact hrep s' _ (hin s s' hf hp)

end Sys2Proof.Machine
end

