-- ==== Sys2Proof/Laws/Lines.lean ====
section
/-! SUPPORT. Reading a line after writing one. -/

namespace Sys2Proof

@[simp] theorem Lines.get_set_self {α : Type} (v : Lines α) (l : Line) (a : α) : (v.set l a).get l = a := by
  cases l <;> rfl

@[simp] theorem Lines.get_set_ne {α : Type} (v : Lines α) {l l' : Line} (a : α) (h : l' ≠ l) :
    (v.set l a).get l' = v.get l' := by
  cases l <;> cases l' <;> first | rfl | exact absurd rfl h

/-- Both reads at once. -/
theorem Lines.get_set {α : Type} (v : Lines α) (l l' : Line) (a : α) :
    (v.set l a).get l' = if l = l' then a else v.get l' := by
  by_cases h : l = l'
  · subst h; simp
  · rw [Lines.get_set_ne v a (Ne.symm h), if_neg h]

end Sys2Proof
end

