-- ==== Sys2Proof/Laws/PerInstr.lean ====
section
/-! SUPPORT. A statement about every instruction, as syntax: whether it has a request, and how long the request is. -/

namespace Sys2Proof.Laws

/-- The column "total length" of R74, in bytes; nothing for what the request port does not take. -/
def WrittenForm.totalLength : Instr → Option Nat
  | .init => some 1
  | .begin _ _ _ => some 4
  | .setCursor _ _ => some 3
  | .drawChar _ _ _ => some 4
  | .drawString s => some (2 + s.length)
  | .clear => some 1
  | .on => some 1
  | .off => some 1
  | .reservedRequest _ => some 1
  | .writeNibble _ => none
  | .send _ _ => none
  | .command _ => none
  | .hs3 => none
  | .hs2 => none
  | .functionset _ _ _ => none
  | .displaycontrol _ _ _ => none
  | .cleardisplay => none
  | .entrymodeset _ _ => none
  | .setddramaddr _ => none
  | .datawrite _ => none

/-- The number of bytes a written form puts on the request port. -/
def WrittenForm.portLength : Encoded → Option Nat
  | .request bytes => some bytes.length
  | .internal _ => none

/-- R74: the encoder writes a request of the table's length, or no request where the table has none. -/
def WrittenForm.Statement (i : Instr) : Prop := WrittenForm.portLength (encode i) = WrittenForm.totalLength i

theorem WrittenForm.init : WrittenForm.Statement .init := rfl
theorem WrittenForm.begin (columns lines : Byte) (charsize : Font) :
    WrittenForm.Statement (.begin columns lines charsize) := rfl
theorem WrittenForm.setCursor (x y : Byte) : WrittenForm.Statement (.setCursor x y) := rfl
theorem WrittenForm.drawChar (x y c : Byte) : WrittenForm.Statement (.drawChar x y c) := rfl
theorem WrittenForm.drawString (s : List Byte) : WrittenForm.Statement (.drawString s) := by
  simp [WrittenForm.Statement, WrittenForm.portLength, WrittenForm.totalLength, encode]
  omega
theorem WrittenForm.clear : WrittenForm.Statement .clear := rfl
theorem WrittenForm.on : WrittenForm.Statement .on := rfl
theorem WrittenForm.off : WrittenForm.Statement .off := rfl
theorem WrittenForm.reservedRequest (b : Byte) : WrittenForm.Statement (.reservedRequest b) := rfl
theorem WrittenForm.writeNibble (value : Byte) : WrittenForm.Statement (.writeNibble value) := rfl
theorem WrittenForm.send (value : Byte) (mode : Mode) : WrittenForm.Statement (.send value mode) := rfl
theorem WrittenForm.command (value : Byte) : WrittenForm.Statement (.command value) := rfl
theorem WrittenForm.hs3 : WrittenForm.Statement .hs3 := rfl
theorem WrittenForm.hs2 : WrittenForm.Statement .hs2 := rfl
theorem WrittenForm.functionset (w n f : Bool) : WrittenForm.Statement (.functionset w n f) := rfl
theorem WrittenForm.displaycontrol (d c b : Bool) : WrittenForm.Statement (.displaycontrol d c b) := rfl
theorem WrittenForm.cleardisplay : WrittenForm.Statement .cleardisplay := rfl
theorem WrittenForm.entrymodeset (i s : Bool) : WrittenForm.Statement (.entrymodeset i s) := rfl
theorem WrittenForm.setddramaddr (a : BitVec 7) : WrittenForm.Statement (.setddramaddr a) := rfl
theorem WrittenForm.datawrite (c : Byte) : WrittenForm.Statement (.datawrite c) := rfl

end Sys2Proof.Laws
end

