-- ==== Sys2Proof/Tests/Slice0.lean ====
section
/-! SUPPORT. The model's own tests: ill-formed terms, words and requests written out from the spec, the spec's vectors
(spec/95_test_vectors.md; the vector is named in each comment), and a witness for the hypotheses of each statement. -/

namespace Sys2Proof.Tests

open Sys2Proof.Machine

/-! ## Helpers -/

/-- The next state, if there is one. -/
def next? : Host.Outcome State Fault Refusal → Option State
  | .next s => some s
  | .fault _ => none
  | .refused _ => none

/-- What is read from a next state is read from the outcome. -/
theorem next_of_read {α : Type} {o : Host.Outcome State Fault Refusal} {f : State → α} {a : α}
    (h : (next? o).map f = some a) : ∃ t, o = .next t ∧ f t = a := by
  cases o with
  | next t => exact ⟨t, rfl, Option.some.inj h⟩
  | fault _ => cases h
  | refused _ => cases h

/-- The refusal, if there is one. -/
def refusal? : Host.Outcome State Fault Refusal → Option Refusal
  | .next _ => none
  | .fault _ => none
  | .refused r => some r

/-- The configuration of the vectors: `RW_PRESENT = true`, 32 pins in the table. -/
def cfg : Cfg := { rwPresent := true, pins := ⟨0, 1, 2, 3, 4, 5, 6⟩, pinTableSize := 32, ticksPerMs := 72000 }

/-- The same without a read/write line. -/
def cfgNoRw : Cfg := { cfg with rwPresent := false }

/-- After reset. -/
def start : State := State.resetWith cfg

/-- A state between operations after a `begin`, as V-A1 and V-B give it, with an empty trace. -/
def ready (lines : Byte) (rows : List Byte) : State :=
  { State.resetWith cfg with
    fsmState := .ready
    initialized := true
    functionBits := 0x08
    controlBits := 0x04
    entryModeBits := 0x02
    rowOffsets := rows
    lineCount := lines
    dir := ⟨.output, .output, .output, .output, .output, .output, .output⟩
    level := ⟨.low, .low, .low, .low, .high, .high, .low⟩ }

/-- After `init()`: four rows of twenty columns. -/
def afterInit : State := ready 4 [0x00, 0x40, 0x14, 0x54]

/-- The events of `NIB(b3 b2 b1 b0)` in the vectors' notation. -/
def nib (b3 b2 b1 b0 : Level) : List Event :=
  [.drive .d0 b0, .drive .d1 b1, .drive .d2 b2, .drive .d3 b3, .drive .e .low, .wait 1, .drive .e .high, .wait 1,
    .drive .e .low, .wait 100]

/-- The events that begin a byte transfer: RS to a level, RW Low. -/
def select (rs : Level) : List Event := [.drive .rs rs, .drive .rw .low]

/-- One wait. -/
def pause (n : Micros) : List Event := [.wait n]

/-- The transfers an instruction makes from a state with an empty trace, as bus words of five bits. -/
def words (i : Instr) (s : State) : Option (List (BitVec 5)) :=
  (next? (exec i s)).map fun t => (transfersFrom s t.trace).map bus5Word

/-- The events an instruction emits from a state with an empty trace. -/
def events (i : Instr) (s : State) : Option (List Event) := (next? (exec i s)).map State.trace

/-! ## Well-formedness: one ill-formed term for each check -/

theorem test_cfg_wf : cfg.wf = true := by decide
theorem test_cfgNoRw_wf : cfgNoRw.wf = true := by decide
theorem test_wf_bases : { cfg with cmdClearDisplay := 0x04 }.basesDistinct = false ∧
    { cfg with cmdClearDisplay := 0x04 }.wf = false := by decide
theorem test_wf_masks_single : { cfg with fn2line := 0x0C }.masksSingle = false ∧
    { cfg with fn2line := 0x0C }.wf = false := by decide
theorem test_wf_masks_disjoint : { cfg with ctBlinkOn := 0x02 }.masksSingle = false ∧
    { cfg with ctBlinkOn := 0x02 }.wf = false := by decide
theorem test_wf_mask_zero : { cfg with emShift := 0x00 }.masksSingle = false := by decide
theorem test_wf_masks_below : { cfg with fn8bit := 0x20 }.masksBelowBases = false ∧
    { cfg with fn8bit := 0x20 }.wf = false := by decide
theorem test_wf_ddram_base : { cfg with cmdSetDdramAddr := 0xC0 }.ddramBaseIsTopBit = false ∧
    { cfg with cmdSetDdramAddr := 0xC0 }.wf = false := by decide
theorem test_wf_ticks : { cfg with ticksPerMs := 0 }.ticksPositive = false ∧
    { cfg with ticksPerMs := 0 }.wf = false := by decide
theorem test_wf_pins : { cfg with pins := ⟨0, 1, 2, 3, 4, 5, 3⟩ }.pinsDistinct = false ∧
    { cfg with pins := ⟨0, 1, 2, 3, 4, 5, 3⟩ }.wf = false := by decide
/-- Without a read/write line its pin does not count (R11 (f)). -/
theorem test_wf_absent_rw_pin : { cfgNoRw with pins := ⟨0, 3, 2, 3, 4, 5, 6⟩ }.wf = true := by decide
theorem test_wf_long_string : (Instr.drawString (List.replicate 256 0x41)).wf = false := by decide +kernel
theorem test_wf_reserved : (Instr.reservedRequest 0x07).wf = false ∧ (Instr.reservedRequest 0x08).wf = true := by
  decide
theorem test_refuses_ill_formed_cfg :
    refusal? (exec .init (State.resetWith { cfg with ticksPerMs := 0 })) = some .illFormedConfig ∧
    refusal? (exec .clear (State.resetWith { cfg with ticksPerMs := 0 })) = some .illFormedConfig := by decide

/-! ## Decoding: requests (R74) and words (R63 to R70) written out -/

theorem test_decode_init : decodeRequest [0x00, 0x99] = .instr .init [0x99] := by decide
/-- V-G4. -/
theorem test_decode_begin : decodeRequest [0x01, 0x10, 0x02, 0x01] = .instr (.begin 16 2 .f5x10) [] := by decide
/-- V-G3. -/
theorem test_decode_begin_reserved : decodeRequest [0x01, 0x10, 0x02, 0x02, 0x33] = .illegal 0x01 [0x33] := by decide
theorem test_decode_setCursor : decodeRequest [0x02, 0x05, 0x03, 0x07] = .instr (.setCursor 5 3) [0x07] := by decide
/-- P2. -/
theorem test_decode_drawChar : decodeRequest [0x03, 0x03, 0x01, 0x41] = .instr (.drawChar 3 1 0x41) [] := by decide
/-- P1, V-G11. -/
theorem test_decode_drawString : decodeRequest [0x04, 0x02, 0x48, 0x69] = .instr (.drawString [0x48, 0x69]) [] ∧
    decodeRequest [0x04, 0x03, 0x41, 0x00, 0x42, 0x06] = .instr (.drawString [0x41, 0x00, 0x42]) [0x06] := by decide
theorem test_decode_clear : decodeRequest [0x05] = .instr .clear [] := by decide
theorem test_decode_on : decodeRequest [0x06] = .instr .on [] := by decide
theorem test_decode_off : decodeRequest [0x07] = .instr .off [] := by decide
/-- V-G1, V-G2. -/
theorem test_decode_reserved : decodeRequest [0x08, 0x00] = .instr (.reservedRequest 0x08) [0x00] ∧
    decodeRequest [0xFF] = .instr (.reservedRequest 0xFF) [] := by decide
theorem test_decode_incomplete : decodeRequest [] = .incomplete ∧ decodeRequest [0x01, 0x10, 0x02] = .incomplete ∧
    decodeRequest [0x04, 0x02, 0x48] = .incomplete := by decide
theorem test_decode_hs3 : decodeBus5 0b00011 = some .hs3 := by decide
theorem test_decode_hs2 : decodeBus5 0b00010 = some .hs2 := by decide
/-- R72: no third kind of single nibble; a nibble with RS High is none. -/
theorem test_decode_bus5_other : decodeBus5 0b00001 = none ∧ decodeBus5 0b10011 = none := by decide
/-- R65: 0x28 is two lines, 0x24 the taller font. -/
theorem test_decode_functionset : decodeBus9 0b000101000 = some (.functionset false true false) ∧
    decodeBus9 0b000100100 = some (.functionset false false true) ∧
    decodeBus9 0b000110000 = some (.functionset true false false) := by decide
theorem test_decode_displaycontrol : decodeBus9 0b000001100 = some (.displaycontrol true false false) ∧
    decodeBus9 0b000001010 = some (.displaycontrol false true false) ∧
    decodeBus9 0b000001001 = some (.displaycontrol false false true) := by decide
theorem test_decode_cleardisplay : decodeBus9 0b000000001 = some .cleardisplay := by decide
theorem test_decode_entrymodeset : decodeBus9 0b000000110 = some (.entrymodeset true false) ∧
    decodeBus9 0b000000101 = some (.entrymodeset false true) := by decide
theorem test_decode_setddramaddr : decodeBus9 0b010011001 = some (.setddramaddr 0x19) := by decide
theorem test_decode_datawrite : decodeBus9 0b101000001 = some (.datawrite 0x41) := by decide
/-- R72: return home, shift, set CGRAM address, and a function set with a low bit are not the engine's. -/
theorem test_decode_bus9_other : decodeBus9 0x002 = none ∧ decodeBus9 0x010 = none ∧ decodeBus9 0x040 = none ∧
    decodeBus9 0x021 = none ∧ decodeBus9 0x000 = none := by decide
/-- The three micro-operations have no binary form: each stands for itself. -/
theorem test_decode_micro : decodeInternal (.writeNibble 3) = some (.writeNibble 3) ∧
    decodeInternal (.send 0x41 .data) = some (.send 0x41 .data) ∧
    decodeInternal (.command 0x28) = some (.command 0x28) := by decide
/-- The words of spec/opcode_table.json, one per format (log entry 9). -/
theorem test_tableWord : decodeTableWord 8 0x00 = some .init ∧ decodeTableWord 8 0x03 = some (.drawChar 0 0 0) ∧
    decodeTableWord 5 0x03 = some .hs3 ∧ decodeTableWord 16 0x020 = some (.functionset false false false) ∧
    decodeTableWord 16 0x100 = some (.datawrite 0) ∧ decodeTableWord 32 0x00021001 = some (.begin 16 2 .f5x8) := by
  decide
theorem test_withFetchWord :
    (next? (step (State.reset.withFetchWord 16 0x001))).map (fun t => t.trace.length) = some 23 ∧
    (next? (step (State.reset.withFetchWord 8 0x06))).map State.reports = some [.notInitialized] := by decide +kernel

/-! ## `begin` and `init` -/

/-- V-A1: the events of `init()` from reset. -/
theorem test_init_events : events .init start = some (
    ([.dir .rs .output, .dir .rw .output, .dir .e .output, .dir .d0 .output, .dir .d1 .output, .dir .d2 .output,
      .dir .d3 .output, .drive .rs .low, .drive .rw .low, .drive .e .low, .wait 50000] : List Event) ++
    nib .low .low .high .high ++ pause 4500 ++ nib .low .low .high .high ++ pause 4500 ++
    nib .low .low .high .high ++ pause 150 ++ nib .low .low .high .low ++
    select .low ++ nib .low .low .high .low ++ nib .high .low .low .low ++
    select .low ++ nib .low .low .low .low ++ nib .high .high .low .low ++
    select .low ++ nib .low .low .low .low ++ nib .low .low .low .high ++ pause 2000 ++
    select .low ++ nib .low .low .low .low ++ nib .low .high .high .low) := by decide +kernel
/-- V-A1: the end state. -/
theorem test_init_state : next? (exec .init start) = (events .init start).map fun es =>
    { afterInit with trace := es, reports := [.completed] } := by decide +kernel
/-- V-A2, V-G7: no read/write line; 137 events; its pin is not looked at. -/
theorem test_begin_no_rw :
    (events (.begin 20 4 .f5x8) (State.resetWith { cfgNoRw with pins := ⟨0, 99, 2, 3, 4, 5, 6⟩ })).map List.length =
      some 137 := by decide +kernel
/-- V-B2, V-B4, V-B5: the font bit, the ignored font, no line at all. -/
theorem test_begin_function_bits :
    (next? (exec (.begin 16 1 .f5x10) start)).map State.functionBits = some 0x04 ∧
    (next? (exec (.begin 16 2 .f5x10) start)).map State.functionBits = some 0x08 ∧
    (next? (exec (.begin 8 0 .f5x10) start)).map State.functionBits = some 0x00 := by decide
/-- V-B6: the sum of row 3 wraps. -/
theorem test_begin_rows :
    (next? (exec (.begin 200 4 .f5x8) start)).map State.rowOffsets = some [0x00, 0x40, 0xC8, 0x08] := by decide
/-- V-G10. -/
theorem test_second_begin : refusal? (exec .init afterInit) = some .secondBegin ∧
    refusal? (exec (.begin 16 1 .f5x8) afterInit) = some .secondBegin := by decide
/-- V-G5, V-G6. -/
theorem test_invalid_pin :
    (next? (exec .init (State.resetWith { cfg with pins := ⟨0, 1, 2, 3, 4, 40, 6⟩ }))).map State.reports =
      some [.invalidPin 40] ∧
    (next? (exec .init (State.resetWith { cfg with pins := ⟨99, 1, 77, 3, 4, 5, 6⟩ }))).map State.reports =
      some [.invalidPin 99] := by decide

/-! ## Operating commands -/

/-- V-C2, V-C9: an address, and a sum that wraps. -/
theorem test_setCursor : words (.setCursor 5 2) afterInit = some [0b01001, 0b01001] ∧
    words (.setCursor 255 1) afterInit = some [0b01011, 0b01111] := by decide
/-- V-C14, V-C18, V-C19: the row clamp. -/
theorem test_setCursor_clamp :
    words (.setCursor 5 3) (ready 2 [0x00, 0x40, 0x10, 0x50]) = some [0b01100, 0b00101] ∧
    words (.setCursor 0 4) (ready 5 [0x00, 0x40, 0x14, 0x54]) = some [0b01101, 0b00100] ∧
    refusal? (exec (.setCursor 0 0) (ready 0 [0x00, 0x40, 0x08, 0x48])) = some .emptyRowRange := by decide
/-- R10: `MAX_ROWS` is the cap of the clamp and the size of the table. -/
theorem test_maxRows :
    words (.setCursor 0 7) { afterInit with cfg := { cfg with maxRows := 2 } } = some [0b01100, 0b00000] ∧
    (next? (exec (.begin 16 4 .f5x8) (State.resetWith { cfg with maxRows := 2 }))).map State.rowOffsets =
      some [0x00, 0x40] := by decide
/-- V-D3, V-D4. -/
theorem test_drawChar : words (.drawChar 0 1 0x41) afterInit = some [0b01100, 0b00000, 0b10100, 0b10001] ∧
    words (.drawChar 0 0 0xFF) afterInit = some [0b01000, 0b00000, 0b11111, 0b11111] := by decide
/-- V-D1, V-D2. -/
theorem test_drawString : events (.drawString []) afterInit = some [] ∧
    events (.drawString [0x48, 0x69]) afterInit = some (
      select .high ++ nib .low .high .low .low ++ nib .high .low .low .low ++
      select .high ++ nib .low .high .high .low ++ nib .high .low .low .high) := by decide
/-- V-G9: the check does not depend on the length. -/
theorem test_drawString_before_begin :
    (next? (exec (.drawString []) start)).map State.reports = some [.notInitialized] := by decide
/-- V-E1. -/
theorem test_clear : events .clear afterInit = some (
    select .low ++ nib .low .low .low .low ++ nib .low .low .low .high ++ pause 2000) := by
  decide
/-- V-F1, steps 1 and 3. -/
theorem test_on : words .on { afterInit with controlBits := 0x00 } = some [0b00000, 0b01100] ∧
    (next? (exec .on { afterInit with controlBits := 0x02 })).map State.controlBits = some 0x06 := by decide
/-- V-F1, step 2; the other bits are kept. -/
theorem test_off : words .off afterInit = some [0b00000, 0b01000] ∧
    (next? (exec .off { afterInit with controlBits := 0x07 })).map State.controlBits = some 0x03 := by decide
/-- V-G1. -/
theorem test_reserved : next? (exec (.reservedRequest 0x08) start) =
    some { start with reports := [.illegalRequest 0x08] } := by decide

/-! ## Micro-operations and bus words -/

/-- V-D7. -/
theorem test_writeNibble : events (.writeNibble 0x28) start = some (nib .high .low .low .low) ∧
    events (.writeNibble 0xF0) start = some (nib .low .low .low .low) := by decide
/-- V-D6 and V-D5. -/
theorem test_send : events (.send 0x28 .command) start = some (
      select .low ++ nib .low .low .high .low ++ nib .high .low .low .low) ∧
    events (.send 0x41 .data) (State.resetWith cfgNoRw) = some (
      [.drive .rs .high] ++ nib .low .high .low .low ++ nib .low .low .low .high) := by decide
/-- R83's example. -/
theorem test_command : words (.command 0x01) start = some [0b00000, 0b00001] := by decide
theorem test_hs3 : words .hs3 start = some [0b00011] := by decide
theorem test_hs2 : words .hs2 start = some [0b00010] := by decide
theorem test_functionset : words (.functionset false true false) start = some [0b00010, 0b01000] := by decide
theorem test_displaycontrol : words (.displaycontrol true false true) start = some [0b00000, 0b01101] := by decide
/-- R67: always followed by `Wait(2000)`. -/
theorem test_cleardisplay : (events .cleardisplay start).map List.getLast? = some (some (.wait 2000)) := by decide
theorem test_entrymodeset : words (.entrymodeset true false) start = some [0b00000, 0b00110] := by decide
theorem test_setddramaddr : words (.setddramaddr 0x19) start = some [0b01001, 0b01001] := by decide
theorem test_datawrite : words (.datawrite 0x41) start = some [0b10100, 0b10001] := by decide

/-! ## The step, and the timing collaborator -/

/-- V-G3: four bytes consumed, nothing else. -/
theorem test_step_illegal_begin : next? (step { start with requests := [0x01, 0x10, 0x02, 0x02, 0x06] }) =
    some { start with requests := [0x06], reports := [.illegalRequest 0x01] } := by decide
/-- V-H1, V-H7, V-H8, V-H10. -/
theorem test_delayTarget : delayTarget 72000 1 = 72 ∧ delayTarget 999 1 = 1 ∧ delayTarget 999 150 = 150 ∧
    delayTarget 500 0 = 0 := by decide
/-- V-H11. -/
theorem test_delay_wrap : delayMicroseconds 1000 100 40 [10, 980, 940] = some 100 := by decide

/-! ## Witnesses: a state and operands that meet the hypotheses of each statement -/

/-- A state of each kind meets R34's invariant. -/
theorem witness_inv_start : start.Inv :=
  ⟨rfl, .inl rfl, by decide, by decide, .inl rfl, fun _ => rfl, fun h => absurd h (by decide)⟩

theorem witness_inv_afterInit : afterInit.Inv :=
  ⟨rfl, .inr rfl, by decide, by decide, .inr (.inl rfl), by decide,
    fun _ => ⟨.inl rfl, rfl, ⟨20, by decide⟩, fun l _ => by cases l <;> rfl, rfl, fun _ => rfl, by decide, by decide⟩⟩

/-- The longest string there is. -/
theorem witness_RequestDecodeEncode_encode : ∃ i bytes, i = Instr.drawString (List.replicate 255 0x41) ∧
    i.wf = true ∧ encode i = .request bytes ∧ bytes.length = 257 := by
  refine ⟨_, _, rfl, ?_, rfl, ?_⟩ <;> decide +kernel

theorem witness_RequestDecodeEncode_decode :
    decodeRequest [0x04, 0x01, 0x48, 0x05] = .instr (.drawString [0x48]) [0x05] := by decide

theorem witness_ReservedRequestsRaise_opcode : 8 ≤ (0x08 : Byte).toNat ∧ 8 ≤ (0xFF : Byte).toNat ∧
    ({ start with requests := [0x08, 0x01] } : State).internalOps = [] ∧
    ({ start with requests := [0x08, 0x01] } : State).requests = 0x08 :: [0x01] := by decide

theorem witness_ReservedRequestsRaise_charsize : (0x02 : Byte) &&& 0xFE ≠ 0 ∧ (0x80 : Byte) &&& 0xFE ≠ 0 ∧
    (0x01 : Byte) &&& 0xFE = 0 ∧ (0x00 : Byte) &&& 0xFE = 0 ∧
    ({ start with requests := [0x01, 0x10, 0x02, 0x02] } : State).requests = 0x01 :: 0x10 :: 0x02 :: 0x02 :: [] := by
  decide

theorem witness_ReservedRequestsRaise_string : ([] : List Byte).length = (0x00 : Byte).toNat ∧
    (List.replicate 255 (0x41 : Byte)).length = (0xFF : Byte).toNat := by decide +kernel

theorem witness_StepRunsDecodedRequest : ({ start with requests := [0x06, 0x07] } : State).internalOps = [] ∧
    decodeRequest ({ start with requests := [0x06, 0x07] } : State).requests = .instr .on [0x07] := by decide

theorem witness_StepRunsInternalOperation :
    ({ start with internalOps := [.bus5 0b00011, .command 0x01] } : State).internalOps =
      .bus5 0b00011 :: [.command 0x01] ∧ decodeInternal (.bus5 0b00011) = some .hs3 := by decide

theorem witness_IdleStepChangesNothing : start.internalOps = [] ∧ decodeRequest start.requests = .incomplete ∧
    decodeRequest ({ start with requests := [0x02, 0x05] } : State).requests = .incomplete := by decide

theorem witness_PlacedInstructionRunsNext : (Instr.setCursor 255 255).wf = true ∧ start.internalOps = [] ∧
    (Instr.setddramaddr 0x7F).wf = true := by decide

theorem witness_WriteNibbleEmitsTenEvents : start.cfg.wf = true ∧ start.cfg.HasSpecValues := by decide

theorem witness_SendEmitsByteTransfer : start.cfg.wf = true ∧ (State.resetWith cfgNoRw).cfg.wf = true := by decide

theorem witness_CommandIsSendCommand : start.cfg.wf = true := by decide

/-- The highest valid pin, 6 of a table of 7, included. -/
theorem witness_BeginCompletes : start.cfg.wf = true ∧ start.fsmState = .uninitialized ∧
    (∀ p ∈ start.cfg.pinList, p < start.cfg.pinTableSize) ∧
    { cfg with pinTableSize := 7 }.wf = true ∧ (∀ p ∈ ({ cfg with pinTableSize := 7 } : Cfg).pinList, p < 7) ∧
    3 < cfg.maxRows ∧ ([0x00, 0x40, 0x00 + 16, 0x40 + 16] : List Byte)[3]? = some 0x50 := by decide

theorem witness_InitIsBegin20x4 : start.cfg.HasSpecValues ∧ start.cfg.wf = true ∧ start.fsmState = .uninitialized ∧
    (∀ p ∈ cfg.pinList, p < cfg.pinTableSize) ∧ start = State.resetWith cfg := by decide

theorem witness_BeginShape : start.cfg.HasSpecValues ∧
    ∃ t, exec (.begin 16 1 .f5x10) start = .next t ∧ t.reports = start.reports ++ [.completed] :=
  ⟨by decide, _, rfl, rfl⟩

/-- No line, one line, two lines. -/
theorem witness_FunctionBitsOfFirstBegin : start.functionBits = 0 ∧
    (∃ t, exec (.begin 16 0 .f5x10) start = .next t ∧ t.reports = start.reports ++ [.completed]) ∧
    (∃ t, exec (.begin 16 1 .f5x10) start = .next t ∧ t.reports = start.reports ++ [.completed]) ∧
    ∃ t, exec (.begin 16 2 .f5x10) start = .next t ∧ t.reports = start.reports ++ [.completed] :=
  ⟨rfl, ⟨_, rfl, rfl⟩, ⟨_, rfl, rfl⟩, ⟨_, rfl, rfl⟩⟩

theorem witness_SecondBeginRefused : afterInit.cfg.wf = true ∧ Instr.init.isBegin = true ∧
    afterInit.fsmState ≠ .uninitialized := by decide

/-- The first pin past the table, last in the order: pin 6 of a table of 6. -/
theorem witness_InvalidPinRaised : { cfg with pinTableSize := 6 }.wf = true ∧ Instr.init.isBegin = true ∧
    [cfg.pins.rs] ++ (if cfg.rwPresent then [cfg.pins.rw] else []) ++
        [cfg.pins.e, cfg.pins.d0, cfg.pins.d1, cfg.pins.d2, cfg.pins.d3] = [0, 1, 2, 3, 4, 5] ++ 6 :: [] ∧
    (∀ p ∈ [0, 1, 2, 3, 4, 5], p < 6) ∧ 6 ≤ 6 ∧ (State.resetWith { cfg with pinTableSize := 6 }).fsmState = .uninitialized := by
  decide

theorem witness_InvalidPinsNeverInitialize : (∃ p ∈ ({ cfg with pinTableSize := 6 } : Cfg).pinList, 6 ≤ p) ∧
    ∃ t, step { State.resetWith { cfg with pinTableSize := 6 } with requests := [0x00] } = .next t :=
  ⟨⟨6, by decide⟩, _, rfl⟩

theorem witness_NotInitializedRaised : start.cfg.wf = true ∧ Instr.on.isOperating = true ∧ start.initialized = false ∧
    start.Inv ∧ start.fsmState ≠ .ready := ⟨by decide, rfl, rfl, witness_inv_start, by decide⟩

theorem witness_EmptyRowRangeRefused : (ready 0 [0x00, 0x40, 0x08, 0x48]).cfg.wf = true ∧
    (ready 0 [0x00, 0x40, 0x08, 0x48]).initialized = true ∧ (ready 0 [0x00, 0x40, 0x08, 0x48]).lineCount = 0 := by
  decide

/-- For `set_cursor` and `draw_char`: before `begin`; no row; one row, asked for row 255; five rows, asked for row 3. -/
theorem witness_SetCursorSendsClampedAddress :
    (start.cfg.wf = true ∧ start.initialized = false) ∧
    ((ready 0 [0, 0x40, 8, 0x48]).initialized = true ∧ (ready 0 [0, 0x40, 8, 0x48]).lineCount = 0) ∧
    ((ready 1 [0, 0x40, 8, 0x48]).initialized = true ∧ min cfg.maxRows (1 : Byte).toNat ≠ 0 ∧
      (ready 1 [0, 0x40, 8, 0x48]).rowOffsets[if 0 < (255 : Byte).toNat then 0 else 255]? = some 0 ∧
      min cfg.maxRows (1 : Byte).toNat - 1 = 0) ∧
    ((ready 5 [0, 0x40, 8, 0x48]).initialized = true ∧ min cfg.maxRows (5 : Byte).toNat ≠ 0 ∧
      (ready 5 [0, 0x40, 8, 0x48]).rowOffsets[if 3 < (3 : Byte).toNat then 3 else 3]? = some 0x48 ∧
      min cfg.maxRows (5 : Byte).toNat - 1 = 3) := by
  decide

theorem witness_DrawCharSendsAddressThenData :
    (start.cfg.wf = true ∧ start.initialized = false) ∧
    ((ready 0 [0, 0x40, 8, 0x48]).initialized = true ∧ (ready 0 [0, 0x40, 8, 0x48]).lineCount = 0) ∧
    (afterInit.cfg.wf = true ∧ afterInit.initialized = true ∧ min cfg.maxRows afterInit.lineCount.toNat ≠ 0 ∧
      afterInit.rowOffsets[if 3 < (4 : Byte).toNat then 3 else 4]? = some 0x54 ∧
      min cfg.maxRows afterInit.lineCount.toNat - 1 = 3) := by
  decide

theorem witness_DrawStringSendsCharacters : (List.replicate 255 (0x41 : Byte)).length ≤ 255 ∧
    (start.cfg.wf = true ∧ start.initialized = false) ∧ (afterInit.cfg.wf = true ∧ afterInit.initialized = true) := by
  decide +kernel

theorem witness_DrawStringBytesInOrder : afterInit.cfg.wf = true ∧ afterInit.initialized = true := by decide

theorem witness_DrawStringConcatenates : afterInit.cfg.wf = true ∧ afterInit.initialized = true := by decide

theorem witness_ClearSendsAndWaits : (start.cfg.wf = true ∧ start.initialized = false) ∧
    (afterInit.cfg.wf = true ∧ afterInit.initialized = true ∧ afterInit.cfg.HasSpecValues) := by decide

theorem witness_OnSetsDisplayBit : (start.cfg.wf = true ∧ start.initialized = false) ∧
    (afterInit.cfg.wf = true ∧ afterInit.initialized = true) := by decide

theorem witness_OffClearsDisplayBit : (start.cfg.wf = true ∧ start.initialized = false) ∧
    (afterInit.cfg.wf = true ∧ afterInit.initialized = true) := by decide

/-- One row and four rows, each asked for the first row past them; five rows, asked for row 3. -/
theorem witness_RowsClampToLastRow :
    (1 ≤ (ready 1 [0, 0x40, 8, 0x48]).lineCount.toNat ∧ (ready 1 [0, 0x40, 8, 0x48]).lineCount.toNat ≤ cfg.maxRows ∧
      (ready 1 [0, 0x40, 8, 0x48]).lineCount.toNat ≤ (1 : Byte).toNat) ∧
    (afterInit.lineCount.toNat ≤ cfg.maxRows ∧ afterInit.lineCount.toNat ≤ (4 : Byte).toNat) ∧
    (1 ≤ cfg.maxRows ∧ cfg.maxRows ≤ (ready 5 [0, 0x40, 8, 0x48]).lineCount.toNat ∧
      cfg.maxRows - 1 ≤ (3 : Byte).toNat) := by decide

/-- The table of V-B6, whose last entry wrapped. -/
theorem witness_AddressByteIgnoresTableWidth :
    (ready 4 [0x00, 0x40, 0xC8, 0x08]).cfg.wf = true ∧ (ready 4 [0x00, 0x40, 0xC8, 0x08]).cfg.HasSpecValues ∧
    (ready 4 [0x00, 0x40, 0xC8, 0x08]).initialized = true ∧ (ready 4 [0x00, 0x40, 0xC8, 0x08]).lineCount ≠ 0 ∧
    (ready 4 [0x00, 0x40, 0xC8, 0x08]).rowOffsets = rowOffsetsFor cfg 200 := by decide

/-- One command of each size. -/
theorem witness_OperatingTraceSizes : afterInit.cfg.HasSpecValues ∧ afterInit.initialized = true ∧
    (∃ t, exec (.drawChar 0 1 0x41) afterInit = .next t) ∧ (∃ t, exec (.drawString []) afterInit = .next t) ∧
    (∃ t, exec .clear afterInit = .next t) ∧ ∃ t, exec .off afterInit = .next t :=
  ⟨by decide, rfl, ⟨_, rfl⟩, ⟨_, rfl⟩, ⟨_, rfl⟩, ⟨_, rfl⟩⟩

theorem witness_HandshakeWordsAreNibbles : start.cfg.wf = true ∧ start.cfg.HasSpecValues ∧ start.level.rs = .low := by
  decide

theorem witness_CommandWordsAreByteTransfers : start.cfg.wf = true := by decide

theorem witness_ClearAndDataWords : start.cfg.wf = true := by decide

theorem witness_BusWordsReachTheWires : start.cfg.wf = true ∧ start.cfg.HasSpecValues ∧
    encode (.setddramaddr 0x7F) = .internal (.bus9 0x0FF) := by decide

/-- One request of each kind that emits. -/
theorem witness_RequestsEmitEngineWordsOnly : start.Inv ∧ start.cfg.HasSpecValues ∧ Instr.init.isRequest = true ∧
    (∃ t, exec .init start = .next t ∧ t.trace = start.trace ++ specBegin cfg 0x08) ∧ afterInit.Inv ∧
    afterInit.cfg.HasSpecValues ∧ Instr.off.isRequest = true ∧
    ∃ t, exec .off afterInit = .next t ∧ t.trace = afterInit.trace ++ specByte cfg 0x08 .command :=
  ⟨witness_inv_start, by decide, rfl, next_of_read (f := State.trace) (by decide +kernel), witness_inv_afterInit,
    by decide, rfl, next_of_read (f := State.trace) (by decide)⟩

/-- A `begin` and an operating command. -/
theorem witness_StepKeepsInvariant :
    (({ start with requests := [0x00] } : State).Inv ∧ ∃ t, step { start with requests := [0x00] } = .next t) ∧
    (({ afterInit with requests := [0x06] } : State).Inv ∧ ∃ t, step { afterInit with requests := [0x06] } = .next t) :=
  ⟨⟨⟨rfl, .inl rfl, by decide, by decide, .inl rfl, fun _ => rfl, fun h => absurd h (by decide)⟩, _, rfl⟩,
    ⟨⟨rfl, .inr rfl, by decide, by decide, .inr (.inl rfl), by decide,
      fun _ => ⟨.inl rfl, rfl, ⟨20, by decide⟩, fun l _ => by cases l <;> rfl, rfl, fun _ => rfl, by decide, by decide⟩⟩,
      _, rfl⟩⟩

/-- A state whose trace already has an event on a line. -/
theorem witness_LinesMirrorTrace :
    ({ afterInit with trace := [.drive .d1 .high, .dir .d1 .output], requests := [0x06] } : State).MirrorsTrace ∧
    ∃ t, step { afterInit with trace := [.drive .d1 .high, .dir .d1 .output], requests := [0x06] } = .next t := by
  refine ⟨⟨?_, ?_⟩, _, rfl⟩
  · intro l a h
    cases l <;> first | cases h; rfl | cases h
  · intro l d h
    cases l <;> first | cases h; rfl | cases h

/-- A state whose trace already has a whole pulse. -/
theorem witness_PulsesStayStable :
    ({ afterInit with trace := nib .low .high .high .low, requests := [0x06] } : State).PulsesClosed ∧
    ∃ t, step { afterInit with trace := nib .low .high .high .low, requests := [0x06] } = .next t :=
  ⟨⟨by decide, by decide⟩, _, rfl⟩

theorem witness_StepsAppendEngineEvents : ∃ t, step { start with requests := [0x00] } = .next t := ⟨_, rfl⟩

theorem witness_ErrorsArePrecise :
    (∃ t, exec .on start = .next t ∧ t.reports = start.reports ++ [.notInitialized]) ∧
    Report.notInitialized ≠ .completed ∧
    decodeRequest ({ start with requests := [0x01, 0x10, 0x02, 0xFF] } : State).requests = .illegal 0x01 [] :=
  ⟨⟨_, rfl, rfl⟩, by decide, by decide⟩

/-- A request and an internal operation. -/
theorem witness_OneReportPerRequest :
    ((∃ t, exec .init start = .next t) ∧ Instr.init.isRequest = true) ∧
    ((∃ t, exec .hs3 start = .next t) ∧ Instr.hs3.isRequest = false) := ⟨⟨⟨_, rfl⟩, rfl⟩, ⟨⟨_, rfl⟩, rfl⟩⟩

/-- Two rows in range, and a table that differs in the other two. -/
theorem witness_RowEntriesPastLastNeverRead :
    (∀ row, row < min cfg.maxRows (ready 2 [0, 0x40, 8, 0x48]).lineCount.toNat →
      ([0, 0x40, 0xFF, 0xFF] : List Byte)[row]? = (ready 2 [0, 0x40, 8, 0x48]).rowOffsets[row]?) ∧
    (∃ t, exec (.setCursor 5 3) (ready 2 [0, 0x40, 8, 0x48]) = .next t) ∧
    afterInit.Inv ∧ min cfg.maxRows afterInit.lineCount.toNat ≠ 0 :=
  ⟨by decide, ⟨_, rfl⟩, witness_inv_afterInit, by decide⟩

/-- Each of the three refusals happens. -/
theorem witness_RefusalsExactlyWhen :
    refusal? (exec .hs3 (State.resetWith { cfg with ticksPerMs := 0 })) = some .illFormedConfig ∧
    refusal? (exec .init afterInit) = some .secondBegin ∧
    refusal? (exec (.drawChar 0 0 0x41) (ready 0 [0, 0x40, 8, 0x48])) = some .emptyRowRange ∧
    refusal? (exec (.setCursor 0 0) { afterInit with cfg := { cfg with maxRows := 0 } }) = some .emptyRowRange := by
  decide

/-- An instruction that is no `begin`, and one that moves `fsm_state`. -/
theorem witness_RegisterWriters :
    (∃ t, exec .clear afterInit = .next t ∧ Instr.clear.isBegin = false) ∧
    ∃ t, exec .init start = .next t ∧ t.fsmState ≠ start.fsmState :=
  ⟨⟨_, rfl, rfl⟩, _, rfl, by decide⟩

theorem witness_RequestsResolveValidPins : start.Inv ∧ Instr.init.isRequest = true ∧
    (∃ t, exec .init start = .next t ∧ t.trace = start.trace ++ specBegin cfg 0x08) ∧
    ∃ e ∈ specBegin cfg 0x08, ∃ p, (e.call start.cfg).pin? = some p :=
  ⟨witness_inv_start, rfl, next_of_read (f := State.trace) (by decide +kernel), .dir .rs .output, .head _, 0, rfl⟩

/-- A period of 1000 ticks, a wait of one microsecond, a sample that adds nothing, then one past the wrap. -/
theorem witness_DelayNeverEndsEarly : 0 < 1000 ∧ (999 :: ([999] ++ [1001])).Pairwise (· ≤ ·) ∧
    delayMicroseconds 1000 1 (counterAt 1000 999) ([999].map (counterAt 1000)) = none ∧
    delayMicroseconds 1000 1 (counterAt 1000 999) (([999] ++ [1001]).map (counterAt 1000)) = some 2 ∧
    (999 :: ([999] ++ [1001])).IsChain (fun a b => b < a + 1000) := by decide

end Sys2Proof.Tests
end

section
/-! The flag masks of a well-formed configuration (R11 (b)), and the `function_bits` a first `begin` computes from them
(R25, R87 steps 1 and 3). -/

namespace Sys2Proof.Machine

theorem ne_zero_of_singleBit {m : Byte} (h : singleBit m = true) : m ≠ 0#8 := by
  rintro rfl; exact absurd h (by decide)

/-- What R11 (b) says of the masks of `function_bits`. -/
theorem functionMasks_of_wf {c : Cfg} (h : c.wf = true) :
    c.fn2line ≠ 0#8 ∧ c.fn5x10 ≠ 0#8 ∧ c.fn2line &&& c.fn5x10 = 0#8 ∧ c.fn2line &&& c.fn8bit = 0#8 ∧
      c.fn5x10 &&& c.fn8bit = 0#8 := by
  simp only [Cfg.wf, Cfg.masksSingle, masksDisjoint, Bool.and_eq_true, List.all_cons, decide_eq_true_eq,
    List.pairwise_cons] at h
  obtain ⟨⟨⟨⟨⟨-, ⟨⟨⟨-, h2, h5, -⟩, d8, d2, -⟩, -⟩, -⟩, -⟩, -⟩, -⟩, -⟩ := h
  refine ⟨ne_zero_of_singleBit h2, ne_zero_of_singleBit h5, d2 _ (by simp), ?_, ?_⟩
  · rw [BitVec.and_comm]; exact d8 _ (by simp)
  · rw [BitVec.and_comm]; exact d8 _ (by simp)

/-- The `function_bits` of `begin` steps 1 and 3, computed from the reset value: at most one bit, because the taller font
is granted to a single line only. -/
theorem functionBits_from_zero (c : Cfg) (lines : Byte) (charsize : Font) :
    withFontBit c lines charsize (withTwoLineBit c lines 0#8) =
      if 1 < lines.toNat then c.fn2line
      else if charsize = .f5x10 ∧ lines.toNat = 1 then c.fn5x10 else 0#8 := by
  unfold withFontBit withTwoLineBit
  by_cases h : 1 < lines.toNat
  · have hne : lines.toNat ≠ 1 := by omega
    simp [h, hne]
  · simp [h]

theorem functionBits_from_zero_values (c : Cfg) (lines : Byte) (charsize : Font) :
    withFontBit c lines charsize (withTwoLineBit c lines 0#8) = 0#8 ∨
      withFontBit c lines charsize (withTwoLineBit c lines 0#8) = c.fn2line ∨
      withFontBit c lines charsize (withTwoLineBit c lines 0#8) = c.fn5x10 := by
  rw [functionBits_from_zero]; split_ifs <;> simp

/-- A `begin` that reports completion was admitted and ran its body. -/
theorem exec_begin_completed {s t : State} {columns lines : Byte} {charsize : Font}
    (h : exec (.begin columns lines charsize) s = .next t) (hr : t.reports = s.reports ++ [.completed]) :
    s.cfg.wf = true ∧ t = (beginBody columns lines charsize s).report .completed := by
  simp only [exec, execBegin] at h
  rcases admitBegin_cases s (beginBody columns lines charsize) with
    ⟨-, h'⟩ | ⟨-, -, h'⟩ | ⟨pin, -, -, -, h'⟩ | ⟨hw, -, -, h'⟩ <;> rw [h'] at h <;> cases h
  · simp at hr
  · exact ⟨hw, rfl⟩

/-- Settles O15: the bits computed from 0 are one mask or none, and the masks are disjoint and not zero. -/
theorem functionBitsOfFirstBegin : Obligations.FunctionBitsOfFirstBegin := by
  intro s t columns lines charsize h0 h hr
  replace h0 : s.functionBits = 0#8 := h0
  obtain ⟨hw, rfl⟩ := exec_begin_completed h hr
  obtain ⟨ne2, ne5, d25, d28, d58⟩ := functionMasks_of_wf hw
  have d52 : s.cfg.fn5x10 &&& s.cfg.fn2line = 0#8 := by rw [BitVec.and_comm]; exact d25
  have one : lines = 1 ↔ lines.toNat = 1 := by simp [← BitVec.toNat_inj]
  simp only [beginBody_eq, State.report_functionBits, State.report_cfg, State.emitAll_functionBits, State.emitAll_cfg,
    h0, functionBits_from_zero, one]
  split_ifs with h2 h5
  · have hne : lines.toNat ≠ 1 := by omega
    simp [h2, hne, ne2, d25, d28]
  · simp [h5, ne5, d52, d58]
  · simp [h2, h5]

end Sys2Proof.Machine
end

section
/-! The invariant of R34: each kind of next state `exec` has keeps it. -/

namespace Sys2Proof.Machine

/-- The reachable values of `control_bits` (R34 (3)) are closed under `on` and `off`. -/
theorem controlBits_closed {c : Cfg} {old bits : Byte} (h : old = c.ctDisplayOn ∨ old = 0x00)
    (hb : bits = old ∨ bits = withDisplayOn c old ∨ bits = withDisplayOff c old) :
    bits = c.ctDisplayOn ∨ bits = 0x00 := by
  rcases hb with rfl | rfl | rfl
  · exact h
  · left; rcases h with rfl | rfl <;> simp [withDisplayOn]
  · right; rcases h with rfl | rfl <;> simp [withDisplayOff]

theorem allOutputs_get {c : Cfg} {l : Line} (h : c.hasLine l = true) (d : Lines Direction) :
    (allOutputs c d).get l = .output := by
  cases l with
  | rw => simp_all [Cfg.hasLine, allOutputs, Lines.get]
  | _ => rfl

theorem levelsAfterByte_rw {c : Cfg} (h : c.rwPresent = true) (v : Byte) (m : Mode) (l : Lines Level) :
    (levelsAfterByte c v m l).rw = .low := by simp [levelsAfterByte, levelsAfterNibble, h]

/-- No report is read by the invariant. -/
theorem State.Inv.report {s : State} (h : s.Inv) (r : Report) : (s.report r).Inv :=
  { h with whenReady := fun hi => { h.whenReady hi with } }

/-- No input is read by the invariant. -/
theorem State.Inv.fetches {s s' : State} (hf : Fetches s s') (h : s.Inv) : s'.Inv := by
  rw [hf]; exact { h with whenReady := fun hi => { h.whenReady hi with } }

/-- `on` and `off` keep the invariant in the register they write. -/
theorem State.Inv.controlBits {s : State} (h : s.Inv) {bits : Byte}
    (hb : bits = s.controlBits ∨ bits = withDisplayOn s.cfg s.controlBits ∨
      bits = withDisplayOff s.cfg s.controlBits) : State.Inv { s with controlBits := bits } :=
  { h with whenReady := fun hi => { h.whenReady hi with control := controlBits_closed (h.whenReady hi).control hb } }

/-- Traffic keeps the directions and the idle levels, and writes no register. -/
theorem State.Inv.traffic {s : State} {es : List Event} (h : s.Inv) (he : Traffic s.cfg es) : (s.emitAll es).Inv := by
  rw [State.emitAll_eq]
  refine { h with whenReady := fun hi => ?_ }
  have hr := h.whenReady hi
  obtain ⟨e_low, rw_low⟩ := he.low s.level hr.enableLow hr.writeLow
  exact { hr with
    outputs := fun l hl => by rw [he.dirs]; exact hr.outputs l hl
    enableLow := e_low
    writeLow := rw_low }

/-- A completed `begin` establishes the whole invariant; of the state before it needs the reset `function_bits` only. -/
theorem Begun.inv {s t : State} (hb : Begun s t) (hreset : s.fsmState = .uninitialized → s.functionBits = 0x00) :
    t.Inv := by
  obtain ⟨hw, hf, hp, columns, lines, charsize, rfl⟩ := hb
  obtain ⟨-, -, -, d28, d58⟩ := functionMasks_of_wf hw
  have values := functionBits_from_zero_values s.cfg lines charsize
  apply State.Inv.report
  rw [beginBody_eq, hreset hf, State.emitAll_eq, dirsAfter_specBegin, levelsAfter_specBegin]
  exact
    { rowCount := rowOffsetsFor_length s.cfg columns
      between := .inr rfl
      ready := iff_of_true rfl rfl
      fourBit := by rcases values with h | h | h <;> simp [h, d28, d58]
      functionValues := values
      functionReset := nofun
      whenReady := fun _ =>
        { control := .inl rfl
          entryMode := rfl
          rows := ⟨columns, rfl⟩
          outputs := fun _ hl => allOutputs_get hl s.dir
          enableLow := rfl
          writeLow := fun hrw => levelsAfterByte_rw hrw _ _ _
          configured := ⟨hw, (firstInvalidPin_eq_none s.cfg).mp hp⟩ } }

/-- Every instruction keeps the invariant. -/
theorem exec_keeps_inv {i : Instr} {s t : State} (he : exec i s = .next t) (h : s.Inv) : t.Inv := by
  rcases exec_next_cases he with ⟨-, r, -, rfl⟩ | ⟨-, hb⟩ | ⟨-, -, -, bits, es, hbits, htr, rfl⟩ |
    ⟨-, -, es, htr, rfl⟩
  · exact h.report r
  · exact hb.inv h.functionReset
  · exact ((h.controlBits hbits).traffic htr).report .completed
  · exact h.traffic htr

/-- Settles O38: the invariant reads neither the inputs nor the reports, and every instruction keeps it. -/
theorem stepKeepsInvariant : Obligations.StepKeepsInvariant := fun _ _ h hstep =>
  step_keeps (P := State.Inv) (fun _ _ => State.Inv.fetches) (fun _ _ _ => exec_keeps_inv)
    (fun _ r h => h.report r) hstep h

end Sys2Proof.Machine
end

section
/-! R31: the lines mirror the last event on each. One emitted event keeps the mirror, so every list of events does. -/

namespace Sys2Proof.Machine

section Last
variable (l l' : Line) (es : List Event) (a : Level) (d : Direction) (n : Micros)
@[simp] theorem lastLevel_append_drive :
    lastLevel l (es ++ [.drive l' a]) = if l' = l then some a else lastLevel l es := by
  simp [lastLevel, List.foldl_append]
@[simp] theorem lastLevel_append_dir : lastLevel l (es ++ [.dir l' d]) = lastLevel l es := by
  simp [lastLevel, List.foldl_append]
@[simp] theorem lastLevel_append_wait : lastLevel l (es ++ [.wait n]) = lastLevel l es := by
  simp [lastLevel, List.foldl_append]
@[simp] theorem lastDir_append_dir : lastDir l (es ++ [.dir l' d]) = if l' = l then some d else lastDir l es := by
  simp [lastDir, List.foldl_append]
@[simp] theorem lastDir_append_drive : lastDir l (es ++ [.drive l' a]) = lastDir l es := by
  simp [lastDir, List.foldl_append]
@[simp] theorem lastDir_append_wait : lastDir l (es ++ [.wait n]) = lastDir l es := by
  simp [lastDir, List.foldl_append]
end Last

/-- One event: it becomes the last on its line, and its line takes its value. -/
theorem State.MirrorsTrace.emit {s : State} (h : s.MirrorsTrace) (e : Event) : (s.emit e).MirrorsTrace := by
  obtain ⟨hlevel, hdir⟩ := h
  cases e with
  | dir l' d =>
    refine ⟨by simpa using hlevel, fun l b hb => ?_⟩
    simp only [State.emit_trace, lastDir_append_dir, State.emit_dir, onDir_dir, Lines.get_set] at hb ⊢
    split_ifs at hb ⊢
    · exact Option.some.inj hb
    · exact hdir l b hb
  | drive l' a =>
    refine ⟨fun l b hb => ?_, by simpa using hdir⟩
    simp only [State.emit_trace, lastLevel_append_drive, State.emit_level, onLevel_drive, Lines.get_set] at hb ⊢
    split_ifs at hb ⊢
    · exact Option.some.inj hb
    · exact hlevel l b hb
  | wait n => exact ⟨by simpa using hlevel, by simpa using hdir⟩

theorem State.MirrorsTrace.emitAll {s : State} (h : s.MirrorsTrace) (es : List Event) : (s.emitAll es).MirrorsTrace := by
  induction es generalizing s with
  | nil => exact h
  | cons e es ih => exact ih (h.emit e)

/-- The mirror reads the two line fields and the trace only. -/
theorem State.MirrorsTrace.of_eq {s s' : State} (h : s.MirrorsTrace) (hl : s'.level = s.level) (hd : s'.dir = s.dir)
    (ht : s'.trace = s.trace) : s'.MirrorsTrace := by
  unfold State.MirrorsTrace; rw [hl, hd, ht]; exact h

theorem State.MirrorsTrace.report {s : State} (h : s.MirrorsTrace) (r : Report) : (s.report r).MirrorsTrace :=
  h.of_eq rfl rfl rfl

/-- Every instruction writes registers, emits events and reports; each of the three keeps the mirror. -/
theorem exec_keeps_mirror {i : Instr} {s t : State} (he : exec i s = .next t) (h : s.MirrorsTrace) : t.MirrorsTrace := by
  rcases exec_next_cases he with ⟨-, r, -, rfl⟩ | ⟨-, -, -, -, columns, lines, charsize, rfl⟩ |
    ⟨-, -, -, bits, es, -, -, rfl⟩ | ⟨-, -, es, -, rfl⟩
  · exact h.report r
  · rw [beginBody_eq]
    apply State.MirrorsTrace.report
    apply State.MirrorsTrace.emitAll
    exact h.of_eq rfl rfl rfl
  · apply State.MirrorsTrace.report
    apply State.MirrorsTrace.emitAll
    exact h.of_eq rfl rfl rfl
  · exact h.emitAll es

/-- Settles O39: a step changes lines only by the events it appends. -/
theorem linesMirrorTrace : Obligations.LinesMirrorTrace := fun _ _ h hstep =>
  step_keeps (P := State.MirrorsTrace) (fun s s' hf h => by rw [hf]; exact h.of_eq rfl rfl rfl)
    (fun _ _ _ => exec_keeps_mirror) (fun _ r h => h.report r) hstep h

end Sys2Proof.Machine
end

section
/-! R36, R136: the invariants at reset. -/

namespace Sys2Proof.Machine

/-- Settles O37: reset is uninitialized, so only the row count and `function_bits` are asked; its trace is empty. -/
theorem resetMeetsInvariants : Obligations.ResetMeetsInvariants := by
  intro c
  have inv : (State.resetWith c).Inv :=
    { rowCount := List.length_replicate
      between := .inl rfl
      ready := by simp
      fourBit := BitVec.zero_and
      functionValues := .inl rfl
      functionReset := fun _ => rfl
      whenReady := nofun }
  have mirrors : (State.resetWith c).MirrorsTrace := ⟨nofun, nofun⟩
  have closed : (State.resetWith c).PulsesClosed := ⟨rfl, nofun⟩
  exact ⟨inv, mirrors, closed, rfl, rfl, rfl, rfl, rfl⟩

end Sys2Proof.Machine
end

section
/-! R20, R23, R33: which instructions write which register. -/

namespace Sys2Proof.Machine

theorem whenInitialized_controlBits {s t : State} {body : State → Host.Outcome State Fault Refusal}
    (hbody : ∀ u, body s = .next u → u.controlBits = s.controlBits) (h : whenInitialized s body = .next t) :
    t.controlBits = s.controlBits := by
  rcases whenInitialized_next h with ⟨r, -, rfl⟩ | ⟨-, -, hb⟩
  · rfl
  · exact hbody t hb

/-- Of the operating commands only `on` and `off` write `control_bits`. -/
theorem exec_operating_controlBits {i : Instr} {s t : State} (hi : i.isOperating = true) (hon : i ≠ .on)
    (hoff : i ≠ .off) (h : exec i s = .next t) : t.controlBits = s.controlBits := by
  cases i with
  | setCursor x y =>
    simp only [exec, execSetCursor] at h
    refine whenInitialized_controlBits (fun u hb => ?_) h
    simp [whenRowsExist_next hb, setCursorBody_eq]
  | drawChar x y c =>
    simp only [exec, execDrawChar] at h
    refine whenInitialized_controlBits (fun u hb => ?_) h
    simp [whenRowsExist_next hb, setCursorBody_eq, send_eq]
  | drawString cs =>
    simp only [exec, execDrawString] at h
    refine whenInitialized_controlBits (fun u hb => ?_) h
    cases hb; simp [drawStringBody_eq]
  | clear =>
    simp only [exec, execClear] at h
    refine whenInitialized_controlBits (fun u hb => ?_) h
    cases hb; simp [clearBody_eq]
  | on => exact absurd rfl hon
  | off => exact absurd rfl hoff
  | _ => cases hi

/-- Settles O45: a raised request and an internal operation write no register, an operating command at most
`control_bits`, and a completed `begin` is what moves `fsm_state`. -/
theorem registerWriters : Obligations.RegisterWriters := by
  intro s t i h
  rcases exec_next_cases h with ⟨-, r, -, rfl⟩ | ⟨hi, -, hf, -, columns, lines, charsize, rfl⟩ |
    ⟨hi, -, -, bits, es, -, htr, rfl⟩ | ⟨-, -, es, htr, rfl⟩
  · simp
  · simp [beginBody_eq, hi, hf]
  · have hcontrol := fun hon hoff => exec_operating_controlBits hi hon hoff h
    simpa [State.emitAll_dir, htr.dirs] using fun _ => hcontrol
  · simp [State.emitAll_dir, htr.dirs]

end Sys2Proof.Machine
end

section
/-! R28, R54: the row table is read at the clamped row only. -/

namespace Sys2Proof.Machine

/-- The state with another row table. -/
def State.withRows (s : State) (rows : List Byte) : State := { s with rowOffsets := rows }

section WithRows
variable (s : State) (rows : List Byte)
@[simp] theorem State.withRows_cfg : (s.withRows rows).cfg = s.cfg := rfl
@[simp] theorem State.withRows_initialized : (s.withRows rows).initialized = s.initialized := rfl
@[simp] theorem State.withRows_lineCount : (s.withRows rows).lineCount = s.lineCount := rfl
@[simp] theorem State.withRows_report (r : Report) :
    (s.withRows rows).report r = (s.report r).withRows rows := rfl
@[simp] theorem State.withRows_emitAll (es : List Event) :
    (s.withRows rows).emitAll es = (s.emitAll es).withRows rows := by
  simp [State.emitAll_eq, State.withRows]
end WithRows

/-- `rows` agrees with the table of `s` at every usable row. -/
def AgreesBelow (s : State) (rows : List Byte) : Prop :=
  ∀ row, row < usableRows s.cfg s.lineCount → rows[row]? = s.rowOffsets[row]?

/-- The address of a row in range is computed from a usable entry only. -/
theorem ddramOperand_withRows {s : State} {rows : List Byte} (hrows : AgreesBelow s rows)
    (hu : usableRows s.cfg s.lineCount ≠ 0) (x y : Byte) :
    ddramOperand (s.withRows rows) x y = ddramOperand s x y := by
  have entry : rows[clampRow s.cfg s.lineCount y]? = s.rowOffsets[clampRow s.cfg s.lineCount y]? :=
    hrows _ (clampRow_lt hu y)
  simp [ddramOperand, State.rowOffset, State.withRows, entry]

theorem setCursorBody_withRows {s : State} {rows : List Byte} (hrows : AgreesBelow s rows)
    (hu : usableRows s.cfg s.lineCount ≠ 0) (x y : Byte) :
    setCursorBody x y (s.withRows rows) = (setCursorBody x y s).withRows rows := by
  simp [setCursorBody_eq, ddramOperand_withRows hrows hu]

/-- The admission of `set_cursor` and `draw_char` reads no entry, so a body that commutes with the change of table makes
the whole command commute with it. -/
theorem rowCommand_withRows {s t : State} {rows : List Byte} {body : State → State}
    (hbody : usableRows s.cfg s.lineCount ≠ 0 → body (s.withRows rows) = (body s).withRows rows)
    (h : (whenInitialized s fun s => whenRowsExist s body) = .next t) :
    (whenInitialized (s.withRows rows) fun s => whenRowsExist s body) = .next (t.withRows rows) := by
  rcases whenInitialized_cases s fun s => whenRowsExist s body with ⟨-, h'⟩ | ⟨hw, hi, h'⟩ | ⟨hw, hi, h'⟩ <;>
    rw [h'] at h
  · cases h
  · cases h
    simp [whenInitialized, underWfConfig, raise, hw, hi]
  · rcases whenRowsExist_cases s body with ⟨-, hr⟩ | ⟨hu, hr⟩ <;> rw [hr] at h <;> cases h
    simp [whenInitialized, underWfConfig, whenRowsExist, complete, hw, hi, hu, hbody hu]

/-- Settles O49: both commands read the table through `ddramOperand` only, and the clamped row is a usable one. -/
theorem rowEntriesPastLastNeverRead : Obligations.RowEntriesPastLastNeverRead := by
  intro s i x y hi
  refine ⟨fun t rows hrows h => ?_, fun hinv hu => ?_⟩
  · rcases hi with rfl | ⟨c, rfl⟩
    · exact rowCommand_withRows (fun hu => setCursorBody_withRows hrows hu x y) h
    · exact rowCommand_withRows (body := fun s => send c .data (setCursorBody x y s))
        (fun hu => by simp [send_eq, setCursorBody_withRows hrows hu]) h
  · have hlt : clampRow s.cfg s.lineCount y < usableRows s.cfg s.lineCount := clampRow_lt hu y
    refine ⟨?_, hlt⟩
    have hle : usableRows s.cfg s.lineCount ≤ s.cfg.maxRows := Nat.min_le_left _ _
    simp [hinv.rowCount, hlt.trans_le hle]

end Sys2Proof.Machine
end

section
/-! R73 to R76, R109: the request port. What the decoder reads from a reserved opcode byte and from a `charsize` byte, and
what a step makes of it. -/

namespace Sys2Proof

/-- R75 (a). -/
theorem decodeRequest_reserved {b : Byte} (h : 8 ≤ b.toNat) (bs : List Byte) :
    decodeRequest (b :: bs) = .instr (.reservedRequest b) bs := by
  have ne : ∀ k : Byte, k.toNat < 8 → b ≠ k := by rintro k hk rfl; omega
  simp [decodeRequest, ne]

/-- The reserved bits 7:1 of `charsize` are clear in two bytes only (R75 (b)). -/
theorem charsize_reserved_clear (charsize : Byte) : charsize &&& 0xFE = 0 ↔ charsize = 0x00 ∨ charsize = 0x01 := by
  revert charsize; decide

theorem decodeRequest_begin_illegal {charsize : Byte} (h : charsize &&& 0xFE ≠ 0) (columns lines : Byte)
    (rest : List Byte) : decodeRequest (0x01 :: columns :: lines :: charsize :: rest) = .illegal 0x01 rest := by
  obtain ⟨h0, h1⟩ := not_or.mp (mt (charsize_reserved_clear charsize).mpr h)
  show decodeBegin (columns :: lines :: charsize :: rest) = _
  rw [decodeBegin, if_neg h0, if_neg h1]

theorem decodeRequest_begin {charsize : Byte} (h : charsize &&& 0xFE = 0) (columns lines : Byte) (rest : List Byte) :
    decodeRequest (0x01 :: columns :: lines :: charsize :: rest) =
      .instr (.begin columns lines (if charsize.getLsbD 0 then .f5x10 else .f5x8)) rest := by
  rcases (charsize_reserved_clear charsize).mp h with rfl | rfl <;> rfl

/-- R76: the length byte says how many of the following bytes are characters. -/
theorem decodeRequest_drawString {n : Byte} {cs : List Byte} (h : cs.length = n.toNat) (rest : List Byte) :
    decodeRequest (0x04 :: n :: (cs ++ rest)) = .instr (.drawString cs) rest := by
  show decodeDrawString (n :: (cs ++ rest)) = _
  rw [decodeDrawString, ← h, if_pos (by simp), List.take_left, List.drop_left]

namespace Machine

/-- A whole request at the front of the port, and nothing placed before it. -/
theorem step_of_instr {s : State} {i : Instr} {rest : List Byte} (hops : s.internalOps = [])
    (hd : decodeRequest s.requests = .instr i rest) : step s = exec i { s with requests := rest } := by
  simp only [step, fetch, hops, hd, runFetched]

/-- A whole request with reserved operand bits set, and nothing placed before it. -/
theorem step_of_illegal {s : State} {b : Byte} {rest : List Byte} (hops : s.internalOps = [])
    (hd : decodeRequest s.requests = .illegal b rest) :
    step s = .next { s with requests := rest, reports := s.reports ++ [.illegalRequest b] } := by
  simp only [step, fetch, hops, hd, runFetched, raise, State.report]

/-- Settles O5. -/
theorem stepRunsDecodedRequest : Obligations.StepRunsDecodedRequest := fun _ _ _ => step_of_instr

/-- Settles O4: the decoder turns the reserved requests into the reserved instruction or the answer `illegal`, and both
are raised with no check before them. -/
theorem reservedRequestsRaise : Obligations.ReservedRequestsRaise := by
  refine ⟨fun s b rest hb => ⟨rfl, fun hops hreq => ?_⟩, fun s columns lines charsize rest hops hreq hc => ?_,
    fun columns lines charsize rest hc => decodeRequest_begin hc columns lines rest, fun _ _ _ => rfl,
    fun _ _ _ _ => rfl, fun _ _ rest hlen => decodeRequest_drawString hlen rest⟩
  · rw [step_of_instr hops (hreq ▸ decodeRequest_reserved hb rest)]; rfl
  · exact step_of_illegal hops (hreq ▸ decodeRequest_begin_illegal hc columns lines rest)

end Machine

end Sys2Proof
end

section
/-! R63 to R70: the bus words placed as instructions. Each is an emission of one nibble or one byte, so only levels and
the trace change. -/

namespace Sys2Proof.Machine

theorem internally_of_wf {s : State} (hw : s.cfg.wf = true) (body : State → State) :
    internally s body = .next (body s) := by rw [internally, underWfConfig, if_pos hw]

/-- The state after a nibble (R81). -/
theorem emitAll_specNibOf (s : State) (v : Byte) :
    s.emitAll (specNibOf s.cfg v) =
      { s with level := levelsAfterNibble v s.level, trace := s.trace ++ specNibOf s.cfg v } := by
  rw [State.emitAll_eq, levelsAfter_specNibOf, dirsAfter_specNibOf]

/-- The state after a byte transfer (R82). -/
theorem emitAll_specByte (s : State) (v : Byte) (m : Mode) :
    s.emitAll (specByte s.cfg v m) =
      { s with level := levelsAfterByte s.cfg v m s.level, trace := s.trace ++ specByte s.cfg v m } := by
  rw [State.emitAll_eq, levelsAfter_specByte, dirsAfter_specByte]

/-- The state after the byte of `clear` and its wait (R99). -/
theorem clearBody_state (s : State) :
    clearBody s =
      { s with
        level := levelsAfterByte s.cfg s.cfg.cmdClearDisplay .command s.level
        trace := s.trace ++ specByte s.cfg s.cfg.cmdClearDisplay .command ++ [.wait s.cfg.tClear] } := by
  rw [clearBody_eq, State.emitAll_append, emitAll_specByte]; rfl

/-- The one transfer of a nibble, with the level already on RS. -/
theorem transfersFrom_specNibOf (s : State) (v : Byte) :
    transfersFrom s (specNibOf s.cfg v) =
      [⟨s.level.rs, if s.cfg.rwPresent then some s.level.rw else none, v.extractLsb' 0 4⟩] := by
  have h := pulsesFrom_specNibOf s.cfg.rwPresent s.cfg v s.level []
  rw [List.append_nil] at h
  rw [transfersFrom, h]; rfl

theorem hsNibbles_of_specValues {c : Cfg} (h : c.HasSpecValues) : c.hsNibbleA = 0x03 ∧ c.hsNibbleB = 0x02 := by
  rw [h]; exact ⟨rfl, rfl⟩

/-- Settles O32: both words are one `write_nibble`, whose transfer carries the level of RS. -/
theorem handshakeWordsAreNibbles : Obligations.HandshakeWordsAreNibbles := by
  intro s hw
  refine ⟨?_, ?_, fun hspec hrs => ?_⟩
  · rw [exec, execHs3, internally_of_wf hw, writeNibble_eq, emitAll_specNibOf]
  · rw [exec, execHs2, internally_of_wf hw, writeNibble_eq, emitAll_specNibOf]
  · obtain ⟨hA, hB⟩ := hsNibbles_of_specValues hspec
    rw [transfersFrom_specNibOf, transfersFrom_specNibOf, hrs, hA, hB]
    constructor <;> simp only [List.map_cons, List.map_nil, bus5Word] <;> decide

/-- A placed word that is one command byte. -/
theorem internally_command {s : State} (hw : s.cfg.wf = true) (v : Byte) :
    internally s (command v) =
      .next { s with
        level := levelsAfterByte s.cfg v .command s.level
        trace := s.trace ++ specByte s.cfg v .command } := by
  rw [internally_of_wf hw, command_eq, emitAll_specByte]

/-- Settles O33: the four words are one command byte each. -/
theorem commandWordsAreByteTransfers : Obligations.CommandWordsAreByteTransfers := fun _ hw =>
  ⟨fun _ _ _ => internally_command hw _, fun _ _ _ => internally_command hw _, fun _ _ => internally_command hw _,
    fun _ => internally_command hw _⟩

/-- Settles O34: the first is the body of `clear`, the second is one data byte. -/
theorem clearAndDataWords : Obligations.ClearAndDataWords := by
  refine fun s hw => ⟨?_, fun c => ?_⟩
  · rw [exec, execCleardisplay, internally_of_wf hw, clearBody_state]
  · rw [exec, execDatawrite, internally_of_wf hw, send_eq, emitAll_specByte]

end Sys2Proof.Machine
end

section
/-! R62, R72: the nine-bit word of a byte transfer, its two transfers on the wires, and the bytes whose word is one of the
engine's. -/

namespace Sys2Proof.Machine

/-- The `BUS9` word of a byte sent in a mode (R62): the RS bit, then the byte. -/
def byteWord (m : Mode) (v : Byte) : BitVec 9 := BitVec.ofBool (m == .data) ++ v

/-- The two transfers of a byte are those of its word, and what follows adds its own. -/
theorem transfers_specByte_append (c : Cfg) (v : Byte) (m : Mode) (l : Lines Level) (es : List Event) :
    (pulsesFrom c.rwPresent l (specByte c v m ++ es)).map Pulse.content =
      bus9Transfers c.rwPresent (byteWord m v) ++
        (pulsesFrom c.rwPresent (levelsAfterByte c v m l) es).map Pulse.content := by
  have rs : lvl ((byteWord m v).getLsbD 8) = modeLevel m := by revert v; cases m <;> decide
  have high : (byteWord m v).extractLsb' 4 4 = v.extractLsb' 4 4 := by revert v; cases m <;> decide
  have low : (byteWord m v).extractLsb' 0 4 = v.extractLsb' 0 4 := by revert v; cases m <;> decide
  rw [pulsesFrom_specByte, bus9Transfers, rs, high, low]; rfl

/-- R10's command bases and flag masks. -/
theorem commands_of_specValues {c : Cfg} (h : c.HasSpecValues) :
    c.cmdClearDisplay = 0x01 ∧ c.cmdEntryModeSet = 0x04 ∧ c.cmdDisplayControl = 0x08 ∧ c.cmdFunctionSet = 0x20 ∧
      c.cmdSetDdramAddr = 0x80 := by rw [h]; exact ⟨rfl, rfl, rfl, rfl, rfl⟩

theorem masks_of_specValues {c : Cfg} (h : c.HasSpecValues) :
    (c.fn8bit = 0x10 ∧ c.fn2line = 0x08 ∧ c.fn5x10 = 0x04) ∧
      (c.ctDisplayOn = 0x04 ∧ c.ctCursorOn = 0x02 ∧ c.ctBlinkOn = 0x01) ∧ c.emLeft = 0x02 ∧ c.emShift = 0x01 := by
  rw [h]; exact ⟨⟨rfl, rfl, rfl⟩, ⟨rfl, rfl, rfl⟩, rfl, rfl⟩

/-- `i` completes from `s` and emits the byte of the word `w`, and after it nothing that makes a pulse. -/
def SendsWord (s : State) (i : Instr) (w : BitVec 9) : Prop :=
  ∃ v m es, byteWord m v = w ∧ (∀ l, pulsesFrom s.cfg.rwPresent l es = []) ∧
    exec i s = .next (s.emitAll (specByte s.cfg v m ++ es))

theorem SendsWord.of_byte {s : State} {i : Instr} {w : BitVec 9} {v : Byte} {m : Mode} (hword : byteWord m v = w)
    (hexec : exec i s = .next (s.emitAll (specByte s.cfg v m))) : SendsWord s i w :=
  ⟨v, m, [], hword, fun _ => rfl, by rw [List.append_nil]; exact hexec⟩

/-- For the values of R10 a nine-bit instruction sends exactly the word the encoder writes. -/
theorem exec_sendsWord {s : State} {i : Instr} {w : BitVec 9} (hw : s.cfg.wf = true) (hspec : s.cfg.HasSpecValues)
    (he : encode i = .internal (.bus9 w)) : SendsWord s i w := by
  obtain ⟨hClear, hEntry, hDisplay, hFunction, hAddr⟩ := commands_of_specValues hspec
  obtain ⟨⟨h8, h2, h10⟩, ⟨hD, hC, hB⟩, hL, hS⟩ := masks_of_specValues hspec
  cases i with
  | functionset w n f =>
    cases he
    refine .of_byte ?_ ((internally_of_wf hw _).trans (by rw [command_eq]))
    rw [functionSetByte, functionFields, hFunction, h8, h2, h10]
    revert w n f; decide
  | displaycontrol d c b =>
    cases he
    refine .of_byte ?_ ((internally_of_wf hw _).trans (by rw [command_eq]))
    rw [displayControlByte, controlFields, hDisplay, hD, hC, hB]
    revert d c b; decide
  | cleardisplay =>
    cases he
    exact ⟨s.cfg.cmdClearDisplay, .command, [.wait s.cfg.tClear], by rw [hClear]; rfl, fun _ => rfl,
      (internally_of_wf hw _).trans (by rw [clearBody_eq])⟩
  | entrymodeset left shift =>
    cases he
    refine .of_byte ?_ ((internally_of_wf hw _).trans (by rw [command_eq]))
    rw [entryModeSetByte, entryModeFields, hEntry, hL, hS]
    revert left shift; decide
  | setddramaddr a =>
    cases he
    refine .of_byte ?_ ((internally_of_wf hw _).trans (by rw [command_eq]))
    rw [setDdramAddrByte, hAddr]
    revert a; decide
  | datawrite c =>
    cases he
    refine .of_byte ?_ ((internally_of_wf hw _).trans (by rw [send_eq]))
    revert c; decide
  | _ => cases he

/-- Settles O35: the word is that of the byte the instruction sends. -/
theorem busWordsReachTheWires : Obligations.BusWordsReachTheWires := by
  intro s i w hw hspec he
  obtain ⟨v, m, es, rfl, hes, hexec⟩ := exec_sendsWord hw hspec he
  refine ⟨_, _, hexec, State.emitAll_trace _ _, ?_⟩
  rw [transfersFrom, transfers_specByte_append, hes]
  simp

/-! ## Engine words only -/

/-- The transfers of a nine-bit word, and what follows them, are engine words exactly when the word decodes and the rest
are. -/
theorem engineWords_bus9Transfers (rwPresent : Bool) (w : BitVec 9) (ts : List Transfer) :
    engineWords 0 (bus9Transfers rwPresent w ++ ts) = ((decodeBus9 w).isSome && engineWords 0 ts) := by
  have word : BitVec.ofBool (levelBit (lvl (w.getLsbD 8))) ++ w.extractLsb' 4 4 ++ w.extractLsb' 0 4 = w := by
    revert w; decide
  have rwLow : ((if rwPresent then some Level.low else none) != some Level.high) = true := by cases rwPresent <;> rfl
  simp only [bus9Transfers, List.cons_append, List.nil_append, engineWords, bus9Word, word, rwLow, beq_self_eq_true,
    Bool.and_true]

/-- Byte transfers of engine words, and waits between them: what an operating command may emit. -/
inductive EngineBytes (c : Cfg) : List Event → Prop where
  | nothing : EngineBytes c []
  | byte {v : Byte} {m : Mode} {es : List Event} (decodes : (decodeBus9 (byteWord m v)).isSome = true)
      (rest : EngineBytes c es) : EngineBytes c (specByte c v m ++ es)
  | wait (n : Micros) {es : List Event} (rest : EngineBytes c es) : EngineBytes c (.wait n :: es)

theorem EngineBytes.one {c : Cfg} {v : Byte} {m : Mode} (h : (decodeBus9 (byteWord m v)).isSome = true) :
    EngineBytes c (specByte c v m) := by simpa using EngineBytes.byte (c := c) h .nothing

theorem EngineBytes.engineWords {c : Cfg} {es : List Event} (h : EngineBytes c es) (l : Lines Level) :
    engineWords 0 ((pulsesFrom c.rwPresent l es).map Pulse.content) = true := by
  induction h generalizing l with
  | nothing => rfl
  | byte decodes _ ih => rw [transfers_specByte_append, engineWords_bus9Transfers, decodes, ih]; rfl
  | wait n _ ih => rw [pulsesFrom_wait, ih]

/-- Every data byte is a `DATAWRITE` (R70). -/
theorem decodeBus9_data (v : Byte) : (decodeBus9 (byteWord .data v)).isSome = true := by
  revert v; decide

/-- Every address byte is a `SETDDRAMADDR` (R69). -/
theorem decodeBus9_address {c : Cfg} (h : c.HasSpecValues) (a : Byte) :
    (decodeBus9 (byteWord .command (setDdramAddrByte c a))).isSome = true := by
  obtain ⟨-, -, -, -, hAddr⟩ := commands_of_specValues h
  rw [setDdramAddrByte, hAddr]
  revert a; decide

/-- The clear byte is `CLEARDISPLAY` (R67). -/
theorem decodeBus9_clear {c : Cfg} (h : c.HasSpecValues) :
    (decodeBus9 (byteWord .command c.cmdClearDisplay)).isSome = true := by
  obtain ⟨hClear, -⟩ := commands_of_specValues h
  rw [hClear]; rfl

/-- For the reachable values of `control_bits` the byte is a `DISPLAYCONTROL` (R66). -/
theorem decodeBus9_display {c : Cfg} (h : c.HasSpecValues) {bits : Byte} (hb : bits = c.ctDisplayOn ∨ bits = 0x00) :
    (decodeBus9 (byteWord .command (displayControlByte c bits))).isSome = true := by
  obtain ⟨-, -, hDisplay, -, -⟩ := commands_of_specValues h
  obtain ⟨-, ⟨hD, -, -⟩, -⟩ := masks_of_specValues h
  rw [hD] at hb
  rw [displayControlByte, hDisplay]
  rcases hb with rfl | rfl <;> rfl

/-- For the reachable values of `function_bits` the byte is a `FUNCTIONSET` (R65). -/
theorem decodeBus9_function {c : Cfg} (h : c.HasSpecValues) {bits : Byte}
    (hb : bits = 0#8 ∨ bits = c.fn2line ∨ bits = c.fn5x10) :
    (decodeBus9 (byteWord .command (c.cmdFunctionSet ||| bits))).isSome = true := by
  obtain ⟨-, -, -, hFunction, -⟩ := commands_of_specValues h
  obtain ⟨⟨-, h2, h10⟩, -, -⟩ := masks_of_specValues h
  rw [h2, h10] at hb
  rw [hFunction]
  rcases hb with rfl | rfl | rfl <;> rfl

/-- The byte of `begin` step 10 is an `ENTRYMODESET` (R68). -/
theorem decodeBus9_entryMode {c : Cfg} (h : c.HasSpecValues) :
    (decodeBus9 (byteWord .command (c.cmdEntryModeSet ||| c.emLeft))).isSome = true := by
  obtain ⟨-, hEntry, -, -, -⟩ := commands_of_specValues h
  obtain ⟨-, -, hL, -⟩ := masks_of_specValues h
  rw [hEntry, hL]; rfl

theorem EngineBytes.string (c : Cfg) (cs : List Byte) : EngineBytes c (specString c cs) := by
  induction cs with
  | nil => exact .nothing
  | cons ch cs ih => exact .byte (decodeBus9_data ch) ih

/-- What an operating command appends to the trace: nothing when it raises, engine bytes when it completes. -/
def SendsEngineBytes (s t : State) : Prop := ∃ es, EngineBytes s.cfg es ∧ t.trace = s.trace ++ es

theorem whenInitialized_sends {s t : State} {body : State → Host.Outcome State Fault Refusal}
    (hbody : s.initialized = true → body s = .next t → SendsEngineBytes s t) (h : whenInitialized s body = .next t) :
    SendsEngineBytes s t := by
  rcases whenInitialized_next h with ⟨r, -, rfl⟩ | ⟨-, hi, hb⟩
  · exact ⟨[], .nothing, by simp⟩
  · exact hbody hi hb

theorem exec_operating_sends {s t : State} {i : Instr} (hinv : s.Inv) (hspec : s.cfg.HasSpecValues)
    (hi : i.isOperating = true) (h : exec i s = .next t) : SendsEngineBytes s t := by
  cases i with
  | setCursor x y =>
    simp only [exec, execSetCursor] at h
    refine whenInitialized_sends (fun _ hb => ⟨_, .one (decodeBus9_address hspec (ddramOperand s x y)), ?_⟩) h
    simp [whenRowsExist_next hb, setCursorBody_eq]
  | drawChar x y c =>
    simp only [exec, execDrawChar] at h
    refine whenInitialized_sends (fun _ hb =>
      ⟨_, .byte (decodeBus9_address hspec (ddramOperand s x y)) (.one (decodeBus9_data c)), ?_⟩) h
    simp [whenRowsExist_next hb, setCursorBody_eq, send_eq]
  | drawString cs =>
    simp only [exec, execDrawString] at h
    refine whenInitialized_sends (fun _ hb => ⟨_, .string s.cfg cs, ?_⟩) h
    cases hb; simp [drawStringBody_eq]
  | clear =>
    simp only [exec, execClear] at h
    refine whenInitialized_sends (fun _ hb => ⟨_, .byte (decodeBus9_clear hspec) (.wait s.cfg.tClear .nothing), ?_⟩) h
    cases hb; simp [clearBody_eq]
  | on =>
    simp only [exec, execOn] at h
    refine whenInitialized_sends (fun hin hb => ?_) h
    have control := controlBits_closed (hinv.whenReady hin).control (.inr (.inl rfl))
    cases hb
    exact ⟨_, .one (decodeBus9_display hspec control), by simp [reissueDisplayControl, command_eq]⟩
  | off =>
    simp only [exec, execOff] at h
    refine whenInitialized_sends (fun hin hb => ?_) h
    have control := controlBits_closed (hinv.whenReady hin).control (.inr (.inr rfl))
    cases hb
    exact ⟨_, .one (decodeBus9_display hspec control), by simp [reissueDisplayControl, command_eq]⟩
  | _ => cases hi

/-- The transfer of a handshake nibble, which `begin` emits with RS Low, and RW Low where it exists. -/
def handshakeTransfer (c : Cfg) (v : Byte) : Transfer :=
  ⟨.low, if c.rwPresent then some .low else none, v.extractLsb' 0 4⟩

/-- The transfers of `begin`: the four handshake nibbles and its four bytes (R87 steps 6 to 10). -/
theorem transfers_specBegin (c : Cfg) (bits : Byte) (l : Lines Level) :
    (pulsesFrom c.rwPresent l (specBegin c bits)).map Pulse.content =
      [c.hsNibbleA, c.hsNibbleA, c.hsNibbleA, c.hsNibbleB].map (handshakeTransfer c) ++
        [c.cmdFunctionSet ||| bits, c.cmdDisplayControl ||| c.ctDisplayOn, c.cmdClearDisplay,
          c.cmdEntryModeSet ||| c.emLeft].flatMap fun v => bus9Transfers c.rwPresent (byteWord .command v) := by
  have bytes : ∀ v : Byte, bus9Transfers c.rwPresent (byteWord .command v) =
      [⟨.low, if c.rwPresent then some .low else none, v.extractLsb' 4 4⟩,
        ⟨.low, if c.rwPresent then some .low else none, v.extractLsb' 0 4⟩] := by
    intro v
    have h := transfers_specByte_append c v .command l []
    rw [pulsesFrom_specByte] at h
    simpa [modeLevel] using h.symm
  simp [pulsesFrom_specBegin, bytes, handshakeTransfer]

/-- The handshake nibbles are `HS3` three times and `HS2` (R63, R64). -/
theorem engineWords_handshake {c : Cfg} (h : c.HasSpecValues) (ts : List Transfer) :
    engineWords 4 ([c.hsNibbleA, c.hsNibbleA, c.hsNibbleA, c.hsNibbleB].map (handshakeTransfer c) ++ ts) =
      engineWords 0 ts := by
  obtain ⟨hA, hB⟩ := hsNibbles_of_specValues h
  rw [hA, hB]; unfold handshakeTransfer
  cases c.rwPresent <;> rfl

theorem engineWords_commands {rwPresent : Bool} {vs : List Byte}
    (h : ∀ v ∈ vs, (decodeBus9 (byteWord .command v)).isSome = true) :
    engineWords 0 (vs.flatMap fun v => bus9Transfers rwPresent (byteWord .command v)) = true := by
  induction vs with
  | nil => rfl
  | cons v vs ih =>
    obtain ⟨hv, hvs⟩ := List.forall_mem_cons.mp h
    rw [List.flatMap_cons, engineWords_bus9Transfers, hv, ih hvs]; rfl

theorem engineWords_specBegin {c : Cfg} (h : c.HasSpecValues) {bits : Byte}
    (hb : bits = 0#8 ∨ bits = c.fn2line ∨ bits = c.fn5x10) (l : Lines Level) :
    engineWords 4 ((pulsesFrom c.rwPresent l (specBegin c bits)).map Pulse.content) = true := by
  rw [transfers_specBegin, engineWords_handshake h]
  refine engineWords_commands ?_
  simp only [List.forall_mem_cons]
  exact ⟨decodeBus9_function h hb, decodeBus9_display h (.inl rfl), decodeBus9_clear h, decodeBus9_entryMode h, nofun⟩

theorem isBegin_of_isOperating {i : Instr} (h : i.isOperating = true) : i.isBegin = false := by
  cases i with
  | init => cases h
  | begin => cases h
  | _ => rfl

/-- Settles O36: a raised request emits nothing, a completed `begin` starts from `function_bits` 0, and an operating
command sends engine bytes. -/
theorem requestsEmitEngineWordsOnly : Obligations.RequestsEmitEngineWordsOnly := by
  intro s t i es hinv hspec hreq hexec htrace
  rcases exec_next_cases hexec with ⟨-, r, -, rfl⟩ | ⟨hi, -, hf, -, columns, lines, charsize, rfl⟩ | ⟨hi, -⟩ | ⟨hi, -⟩
  · obtain rfl : es = [] := by simpa using htrace
    split <;> rfl
  · rw [beginBody_eq, hinv.functionReset hf, State.report_trace, State.emitAll_trace] at htrace
    obtain rfl := List.append_cancel_left htrace
    rw [if_pos hi]
    exact engineWords_specBegin hspec (functionBits_from_zero_values s.cfg lines charsize) s.level
  · obtain ⟨es', hes, ht⟩ := exec_operating_sends hinv hspec hi hexec
    obtain rfl := List.append_cancel_left (htrace.symm.trans ht)
    rw [isBegin_of_isOperating hi]
    exact hes.engineWords s.level
  · rw [hreq] at hi; cases hi

end Sys2Proof.Machine
end

section
/-! R55, R72, R122, R125: a step appends events of this engine. -/

namespace Sys2Proof.Machine

theorem specNib_engineEvents (c : Cfg) (b3 b2 b1 b0 : Bool) : (specNib c b3 b2 b1 b0).all (engineEvent c) = true := by
  simp [specNib, specPulse, engineEvent, engineWaits, Cfg.hasLine]

theorem specByte_engineEvents (c : Cfg) (v : Byte) (m : Mode) : (specByte c v m).all (engineEvent c) = true := by
  cases hc : c.rwPresent <;> simp [specByte, hc, List.all_append, specNib_engineEvents, engineEvent, Cfg.hasLine]

theorem specBegin_engineEvents (c : Cfg) (bits : Byte) : (specBegin c bits).all (engineEvent c) = true := by
  cases hc : c.rwPresent <;>
    simp [specBegin, hc, List.all_append, specNibOf, specNib_engineEvents, specByte_engineEvents, engineEvent,
      engineWaits, Cfg.hasLine]

theorem Traffic.engineEvents {c : Cfg} {es : List Event} (h : Traffic c es) : es.all (engineEvent c) = true := by
  induction h with
  | nothing => rfl
  | nibble v => exact specNib_engineEvents c _ _ _ _
  | byte v m => exact specByte_engineEvents c v m
  | clearWait => simp [engineEvent, engineWaits]
  | both _ _ ih ih' => rw [List.all_append, ih, ih']; rfl

/-- `t` has the configuration of `s` and continues its trace by events of this engine. -/
def Continues (s t : State) : Prop :=
  t.cfg = s.cfg ∧ ∃ es, t.trace = s.trace ++ es ∧ es.all (engineEvent s.cfg) = true

theorem Continues.refl (s : State) : Continues s s := ⟨rfl, [], (List.append_nil _).symm, rfl⟩

theorem Continues.trans {s u t : State} (h : Continues s u) (h' : Continues u t) : Continues s t := by
  obtain ⟨hcfg, es, htrace, hes⟩ := h
  obtain ⟨hcfg', es', htrace', hes'⟩ := h'
  rw [hcfg] at hcfg' hes'
  exact ⟨hcfg', es ++ es', by rw [htrace', htrace, List.append_assoc], by rw [List.all_append, hes, hes']; rfl⟩

theorem exec_continues {i : Instr} {s t : State} (h : exec i s = .next t) : Continues s t := by
  rcases exec_next_cases h with ⟨-, r, -, rfl⟩ | ⟨-, -, -, -, columns, lines, charsize, rfl⟩ |
    ⟨-, -, -, bits, es, -, htr, rfl⟩ | ⟨-, -, es, htr, rfl⟩
  · exact .refl s
  · rw [beginBody_eq]
    exact ⟨by simp, _, by rw [State.report_trace, State.emitAll_trace], specBegin_engineEvents s.cfg _⟩
  · exact ⟨by simp, es, by simp, htr.engineEvents⟩
  · exact ⟨by simp, es, by simp, htr.engineEvents⟩

/-- Settles O41: a fetch and a report append nothing, and an instruction appends traffic or the events of `begin`. -/
theorem stepsAppendEngineEvents : Obligations.StepsAppendEngineEvents := fun s _ h =>
  step_keeps (P := Continues s) (fun _ _ hf hs => by rw [hf]; exact hs) (fun _ _ _ he hs => hs.trans (exec_continues he))
    (fun _ _ hs => hs) h (.refl s)

end Sys2Proof.Machine
end

section
/-! R80 to R83: the micro-operations placed as instructions, and the step that runs a placed internal operation. -/

namespace Sys2Proof.Machine

/-- Only `value[3:0]` reaches the data lines (R81). -/
theorem writeNibble_lowNibble (v : Byte) : writeNibble (lowNibble v) = writeNibble v := by
  funext s
  rw [writeNibble, nibbleEvents_lowNibble, writeNibble_eq]

theorem exec_writeNibble_of_wf {s : State} (hw : s.cfg.wf = true) (v : Byte) :
    exec (.writeNibble v) s =
      .next { s with level := levelsAfterNibble v s.level, trace := s.trace ++ specNibOf s.cfg v } := by
  rw [exec, execWriteNibble, internally_of_wf hw, writeNibble_eq, emitAll_specNibOf]

theorem exec_send_of_wf {s : State} (hw : s.cfg.wf = true) (v : Byte) (m : Mode) :
    exec (.send v m) s =
      .next { s with level := levelsAfterByte s.cfg v m s.level, trace := s.trace ++ specByte s.cfg v m } := by
  rw [exec, execSend, internally_of_wf hw, send_eq, emitAll_specByte]

theorem exec_command_eq_exec_send (v : Byte) (s : State) : exec (.command v) s = exec (.send v .command) s := rfl

@[simp] theorem specNibOf_length (c : Cfg) (v : Byte) : (specNibOf c v).length = 10 := rfl

/-- RS, RW where it exists, and two nibbles of ten events (R82). -/
theorem specByte_length (c : Cfg) (v : Byte) (m : Mode) :
    (specByte c v m).length = if c.rwPresent then 22 else 21 := by
  rw [specByte_eq, ifRw]
  cases c.rwPresent <;> simp

/-- The two transfers of a byte are those of its word (R62). -/
theorem transfersFrom_specByte (s : State) (v : Byte) (m : Mode) :
    transfersFrom s (specByte s.cfg v m) = bus9Transfers s.cfg.rwPresent (byteWord m v) := by
  simpa [transfersFrom] using transfers_specByte_append s.cfg v m s.level []

theorem pulseWaits_of_specValues {c : Cfg} (h : c.HasSpecValues) : c.tSetup = 1 ∧ c.tHigh = 1 ∧ c.tSettle = 100 := by
  rw [h]; exact ⟨rfl, rfl, rfl⟩

/-- A placed internal operation goes before every request (log entry 8). -/
theorem step_of_internal {s : State} {op : InternalOp} {ops : List InternalOp} {i : Instr}
    (hops : s.internalOps = op :: ops) (hd : decodeInternal op = some i) :
    step s = exec i { s with internalOps := ops } := by
  simp only [step, fetch, hops, hd, runFetched]

/-- Settles O6. -/
theorem stepRunsInternalOperation : Obligations.StepRunsInternalOperation := fun _ _ _ _ => step_of_internal

/-- Settles O9: the ten events are the nibble of `value`, whose high four bits `write_nibble` drops. -/
theorem writeNibbleEmitsTenEvents : Obligations.WriteNibbleEmitsTenEvents := fun s value hw =>
  ⟨exec_writeNibble_of_wf hw value, congrArg (internally s) (writeNibble_lowNibble value).symm,
    transfersFrom_specNibOf s value, pulseWaits_of_specValues⟩

/-- Settles O10: the state, the number of events and the transfers of one byte. -/
theorem sendEmitsByteTransfer : Obligations.SendEmitsByteTransfer := fun s value mode hw =>
  ⟨exec_send_of_wf hw value mode, specByte_length s.cfg value mode, transfersFrom_specByte s value mode⟩

/-- Settles O11. -/
theorem commandIsSendCommand : Obligations.CommandIsSendCommand := fun s value =>
  ⟨exec_command_eq_exec_send value s, fun hw =>
    ⟨_, (exec_command_eq_exec_send value s).trans (exec_send_of_wf hw value .command)⟩⟩

end Sys2Proof.Machine
end

section
/-! R86 to R89: an admitted `begin` as one state, its log, and the counts of its events and waits. -/

namespace Sys2Proof.Machine

/-! ## The state after an admitted `begin` -/

/-- A request that passes the three checks of R113 runs its body and completes. -/
theorem admitBegin_of_admitted {s : State} (hw : s.cfg.wf = true) (hf : s.fsmState = .uninitialized)
    (hp : ∀ p ∈ s.cfg.pinList, p < s.cfg.pinTableSize) (body : State → State) :
    admitBegin s body = .next ((body s).report .completed) := by
  simp only [admitBegin, underWfConfig, hw, hf, (firstInvalidPin_eq_none s.cfg).mpr hp, if_true, complete]

/-- Everything an admitted `begin` leaves (R87): the registers of steps 1 to 11, the lines and the events. -/
theorem exec_begin_of_admitted {s : State} (hw : s.cfg.wf = true) (hf : s.fsmState = .uninitialized)
    (hp : ∀ p ∈ s.cfg.pinList, p < s.cfg.pinTableSize) (columns lines : Byte) (charsize : Font) :
    exec (.begin columns lines charsize) s =
      .next { s with
        fsmState := .ready
        initialized := true
        functionBits := withFontBit s.cfg lines charsize (withTwoLineBit s.cfg lines s.functionBits)
        controlBits := s.cfg.ctDisplayOn
        entryModeBits := s.cfg.emLeft
        rowOffsets := rowOffsetsFor s.cfg columns
        lineCount := lines
        dir := allOutputs s.cfg s.dir
        level := levelsAfterByte s.cfg (s.cfg.cmdEntryModeSet ||| s.cfg.emLeft) .command s.level
        trace := s.trace ++
          specBegin s.cfg (withFontBit s.cfg lines charsize (withTwoLineBit s.cfg lines s.functionBits))
        reports := s.reports ++ [.completed] } := by
  rw [exec, execBegin, admitBegin_of_admitted hw hf hp, beginBody_eq, State.emitAll_eq, dirsAfter_specBegin,
    levelsAfter_specBegin]
  rfl

/-- `init` is `begin` of the configured arguments (R86). -/
theorem exec_init_eq_exec_begin (s : State) :
    exec .init s = exec (.begin s.cfg.initColumns s.cfg.initLines s.cfg.initCharsize) s := rfl

/-- A `begin` that reports completion passed the three admission checks. -/
theorem begun_of_begin_completed {s t : State} {columns lines : Byte} {charsize : Font}
    (h : exec (.begin columns lines charsize) s = .next t) (hr : t.reports = s.reports ++ [.completed]) :
    Begun s t := by
  rcases admitBegin_next h with ⟨r, hne, rfl⟩ | hb
  · exact absurd (by simpa using hr) hne
  · exact hb

/-- The font bit, with its condition as R87 step 3 writes it. -/
theorem withFontBit_eq (c : Cfg) (lines : Byte) (charsize : Font) (bits : Byte) :
    withFontBit c lines charsize bits = if charsize = .f5x10 ∧ lines = 1 then bits ||| c.fn5x10 else bits := by
  have one : lines.toNat = 1 ↔ lines = 1 := by simp [← BitVec.toNat_inj]
  simp only [withFontBit, one]

/-- The entries of the row table that step 2 states. -/
theorem rowOffsetFor_of_stated {c : Cfg} {columns offset : Byte} {row : Nat}
    (h : [c.rowBaseEven, c.rowBaseOdd, c.rowBaseEven + columns, c.rowBaseOdd + columns][row]? = some offset) :
    rowOffsetFor c columns row = offset := by
  match row with
  | 0 => exact Option.some.inj h
  | 1 => exact Option.some.inj h
  | 2 => exact Option.some.inj h
  | 3 => exact Option.some.inj h
  | row + 4 => cases h

/-- Settles O12: the state of an admitted `begin`, its bits and its row table as R87 writes them. -/
theorem beginCompletes : Obligations.BeginCompletes := by
  intro s columns lines charsize hw hf hp
  refine ⟨?_, rowOffsetsFor_length s.cfg columns, fun row offset hrow hoffset => ?_⟩
  · rw [exec_begin_of_admitted hw hf hp, withFontBit_eq]; rfl
  · rw [rowOffsetsFor_getElem? s.cfg columns hrow, rowOffsetFor_of_stated hoffset]

/-! ## The log -/

/-- The log of `begin` (R46): the four handshake nibbles with their waits, then the four bytes of steps 7 to 10. -/
theorem log_specBegin (c : Cfg) (bits : Byte) (l : Lines Level) :
    logOf 4 (pulsesFrom c.rwPresent l (specBegin c bits)) =
      [.nibble (c.hsNibbleA.extractLsb' 0 4) .command (some c.tHs1),
        .nibble (c.hsNibbleA.extractLsb' 0 4) .command (some c.tHs2),
        .nibble (c.hsNibbleA.extractLsb' 0 4) .command (some c.tHs3),
        .nibble (c.hsNibbleB.extractLsb' 0 4) .command none,
        .byte (c.cmdFunctionSet ||| bits) .command none,
        .byte (c.cmdDisplayControl ||| c.ctDisplayOn) .command none,
        .byte c.cmdClearDisplay .command (some c.tClear),
        .byte (c.cmdEntryModeSet ||| c.emLeft) .command none] := by
  have halves : ∀ v : Byte, v.extractLsb' 4 4 ++ v.extractLsb' 0 4 = v := by decide
  simp [pulsesFrom_specBegin, logOf, byteEntries, Pulse.delay, levelMode, halves]

/-- R10's waits that are not the pulse's own. -/
theorem stepWaits_of_specValues {c : Cfg} (h : c.HasSpecValues) :
    c.tPowerOn = 50000 ∧ c.tHs1 = 4500 ∧ c.tHs2 = 4500 ∧ c.tHs3 = 150 ∧ c.tClear = 2000 := by
  rw [h]; exact ⟨rfl, rfl, rfl, rfl, rfl⟩

/-- R10's arguments of `init`. -/
theorem initArguments_of_specValues {c : Cfg} (h : c.HasSpecValues) :
    c.initColumns = 20 ∧ c.initLines = 4 ∧ c.initCharsize = .f5x8 := by rw [h]; exact ⟨rfl, rfl, rfl⟩

/-- R10's parameters of the row table. -/
theorem rowTable_of_specValues {c : Cfg} (h : c.HasSpecValues) :
    c.maxRows = 4 ∧ c.rowBaseEven = 0x00 ∧ c.rowBaseOdd = 0x40 := by rw [h]; exact ⟨rfl, rfl, rfl⟩

/-- The log of S5: for R10's values only the `FUNCTIONSET` byte is left open. -/
theorem log_specBegin_of_specValues {c : Cfg} (h : c.HasSpecValues) (bits : Byte) (l : Lines Level) :
    logOf 4 (pulsesFrom c.rwPresent l (specBegin c bits)) =
      [.nibble 0x3 .command (some 4500), .nibble 0x3 .command (some 4500), .nibble 0x3 .command (some 150),
        .nibble 0x2 .command none, .byte (0x20 ||| bits) .command none, .byte 0x0C .command none,
        .byte 0x01 .command (some 2000), .byte 0x06 .command none] := by
  obtain ⟨hA, hB⟩ := hsNibbles_of_specValues h
  obtain ⟨hClear, hEntry, hDisplay, hFunction, -⟩ := commands_of_specValues h
  obtain ⟨-, ⟨hD, -⟩, hL, -⟩ := masks_of_specValues h
  obtain ⟨-, h1, h2, h3, hC⟩ := stepWaits_of_specValues h
  rw [log_specBegin, hA, hB, hClear, hEntry, hDisplay, hFunction, hD, hL, h1, h2, h3, hC]; rfl

/-- R86, for the arguments R10 gives. -/
theorem exec_init_of_specValues {s : State} (h : s.cfg.HasSpecValues) : exec .init s = exec (.begin 20 4 .f5x8) s := by
  obtain ⟨hcolumns, hlines, hfont⟩ := initArguments_of_specValues h
  rw [exec_init_eq_exec_begin, hcolumns, hlines, hfont]

/-- Settles O13: `init` is `begin` of the arguments of R10, so its state is that of an admitted `begin`. -/
theorem initIsBegin20x4 : Obligations.InitIsBegin20x4 := by
  refine ⟨exec_init_eq_exec_begin, fun s => exec_init_of_specValues, fun s hw hf hp => ?_, fun c hw hspec hp => ?_⟩
  · exact ⟨_, exec_begin_of_admitted hw hf hp _ _ _, rfl, rfl, rfl⟩
  · obtain ⟨hrows, hEven, hOdd⟩ := rowTable_of_specValues hspec
    obtain ⟨⟨-, h2, -⟩, ⟨hD, -⟩, hL, -⟩ := masks_of_specValues hspec
    have bits : withFontBit c 4 .f5x8 (withTwoLineBit c 4 0x00) = 0x08 :=
      (functionBits_from_zero c 4 .f5x8).trans h2
    have table : rowOffsetsFor c 20 = [0x00, 0x40, 0x14, 0x54] := by
      rw [rowOffsetsFor_four hrows, hEven, hOdd]; rfl
    have completes := exec_begin_of_admitted (s := State.resetWith c) hw rfl hp 20 4 .f5x8
    rw [← exec_init_of_specValues hspec] at completes
    simp only [State.resetWith_cfg, State.resetWith_functionBits, State.resetWith_trace, List.nil_append, bits,
      table] at completes
    exact ⟨_, completes, rfl, rfl, rfl, hD, hL, rfl, log_specBegin_of_specValues hspec 0x08 _⟩

/-! ## The counts of R89 -/

/-- Four of the events are waits after a nibble or a byte; six name RW, which may not exist. -/
theorem specBegin_length (c : Cfg) (bits : Byte) : (specBegin c bits).length = if c.rwPresent then 143 else 137 := by
  cases hc : c.rwPresent <;> simp [specBegin, hc, specByte_length]

@[simp] theorem totalWait_append (es es' : List Event) : totalWait (es ++ es') = totalWait es + totalWait es' := by
  simp [totalWait]

@[simp] theorem totalWait_cons (e : Event) (es : List Event) : totalWait (e :: es) = e.waitTime + totalWait es := rfl

@[simp] theorem totalWait_nil : totalWait [] = 0 := rfl

/-- The three waits of one pulse (R81). -/
theorem totalWait_specNib (c : Cfg) (b3 b2 b1 b0 : Bool) :
    totalWait (specNib c b3 b2 b1 b0) = c.tSetup.toNat + c.tHigh.toNat + c.tSettle.toNat := by
  simp [specNib, specPulse, Event.waitTime]; omega

/-- A byte waits for its two pulses (R82). -/
theorem totalWait_specByte (c : Cfg) (v : Byte) (m : Mode) :
    totalWait (specByte c v m) = 2 * (c.tSetup.toNat + c.tHigh.toNat + c.tSettle.toNat) := by
  cases hc : c.rwPresent <;> simp [specByte, hc, totalWait_specNib, Event.waitTime] <;> omega

/-- Twelve pulses and the five waits of the steps themselves (R89). -/
theorem totalWait_specBegin (c : Cfg) (bits : Byte) :
    totalWait (specBegin c bits) =
      12 * (c.tSetup.toNat + c.tHigh.toNat + c.tSettle.toNat) +
        (c.tPowerOn.toNat + c.tHs1.toNat + c.tHs2.toNat + c.tHs3.toNat + c.tClear.toNat) := by
  cases hc : c.rwPresent <;>
    simp [specBegin, hc, specNibOf, totalWait_specNib, totalWait_specByte, Event.waitTime] <;> omega

theorem totalWait_specBegin_of_specValues {c : Cfg} (h : c.HasSpecValues) (bits : Byte) :
    totalWait (specBegin c bits) = 62374 := by
  obtain ⟨hSetup, hHigh, hSettle⟩ := pulseWaits_of_specValues h
  obtain ⟨hP, h1, h2, h3, hC⟩ := stepWaits_of_specValues h
  rw [totalWait_specBegin, hSetup, hHigh, hSettle, hP, h1, h2, h3, hC]; rfl

/-- Settles O14: a completed `begin` was admitted, so its events are those of R87, in which `columns` does not occur. -/
theorem beginShape : Obligations.BeginShape := by
  intro s t columns lines charsize hspec h hr
  obtain ⟨hw, hf, hp, -⟩ := begun_of_begin_completed h hr
  have admitted := exec_begin_of_admitted hw hf ((firstInvalidPin_eq_none s.cfg).mp hp)
  rw [admitted] at h
  cases h
  exact ⟨_, rfl, specBegin_length s.cfg _, by simp [transfersFrom, pulsesFrom_specBegin],
    totalWait_specBegin_of_specValues hspec _, log_specBegin_of_specValues hspec _ s.level,
    fun columns' => ⟨_, admitted columns' lines charsize, rfl⟩⟩

end Sys2Proof.Machine
end

section
/-! R95 to R101: the operating commands. Each is admitted by `whenInitialized`; an admitted one is written here as one
state, the registers it writes and the bytes it sends. -/

namespace Sys2Proof.Machine

/-! ## Admission -/

/-- The six operating commands share one admission, made before anything else (R95, R113). -/
theorem exec_operating_eq_whenInitialized {i : Instr} (hop : i.isOperating = true) :
    ∃ body, ∀ s, exec i s = whenInitialized s body := by
  cases i with
  | setCursor x y => exact ⟨_, fun _ => rfl⟩
  | drawChar x y c => exact ⟨_, fun _ => rfl⟩
  | drawString cs => exact ⟨_, fun _ => rfl⟩
  | clear => exact ⟨_, fun _ => rfl⟩
  | on => exact ⟨_, fun _ => rfl⟩
  | off => exact ⟨_, fun _ => rfl⟩
  | _ => cases hop

/-- R106. -/
theorem exec_operating_of_not_initialized {i : Instr} {s : State} (hop : i.isOperating = true) (hw : s.cfg.wf = true)
    (hi : s.initialized = false) : exec i s = .next (s.report .notInitialized) := by
  obtain ⟨body, hbody⟩ := exec_operating_eq_whenInitialized hop
  simp [hbody, whenInitialized, underWfConfig, raise, hw, hi]

/-- An operating command gives a next state under a well-formed configuration only (R110 (c)). -/
theorem wf_of_exec_operating_next {i : Instr} {s t : State} (hop : i.isOperating = true) (h : exec i s = .next t) :
    s.cfg.wf = true := by
  obtain ⟨body, hbody⟩ := exec_operating_eq_whenInitialized hop
  rw [hbody] at h
  rcases whenInitialized_cases s body with ⟨-, h'⟩ | ⟨hw, -⟩ | ⟨hw, -⟩
  · rw [h'] at h; cases h
  · exact hw
  · exact hw

theorem whenInitialized_of_initialized {s : State} (hw : s.cfg.wf = true) (hi : s.initialized = true)
    (body : State → Host.Outcome State Fault Refusal) : whenInitialized s body = body s := by
  rw [whenInitialized, underWfConfig, if_pos hw, if_pos hi]

/-- R110 (b), for both commands that read the row table. -/
theorem whenRowsExist_of_no_line {s : State} (h : s.lineCount = 0) (body : State → State) :
    whenRowsExist s body = .refused .emptyRowRange :=
  if_pos ((usableRows_eq_zero s.cfg s.lineCount).mpr (.inr h))

theorem whenRowsExist_of_rows {s : State} (h : usableRows s.cfg s.lineCount ≠ 0) (body : State → State) :
    whenRowsExist s body = .next ((body s).report .completed) := if_neg h

/-! ## The admitted commands -/

section Admitted
variable {s : State} (hw : s.cfg.wf = true) (hi : s.initialized = true)
include hw hi

theorem exec_setCursor_of_initialized (x y : Byte) :
    exec (.setCursor x y) s = whenRowsExist s (setCursorBody x y) := by
  rw [exec, execSetCursor, whenInitialized_of_initialized hw hi]

theorem exec_drawChar_of_initialized (x y c : Byte) :
    exec (.drawChar x y c) s = whenRowsExist s fun s => send c .data (setCursorBody x y s) := by
  rw [exec, execDrawChar, whenInitialized_of_initialized hw hi]

theorem exec_drawString_of_initialized (cs : List Byte) :
    exec (.drawString cs) s =
      .next { s with
        level := levelsAfterString s.cfg cs s.level
        trace := s.trace ++ specString s.cfg cs
        reports := s.reports ++ [.completed] } := by
  rw [exec, execDrawString, whenInitialized_of_initialized hw hi, complete, drawStringBody_eq, State.emitAll_eq,
    levelsAfter_specString, dirsAfter_specString]; rfl

theorem exec_clear_of_initialized :
    exec .clear s =
      .next { s with
        level := levelsAfterByte s.cfg s.cfg.cmdClearDisplay .command s.level
        trace := s.trace ++ specByte s.cfg s.cfg.cmdClearDisplay .command ++ [.wait s.cfg.tClear]
        reports := s.reports ++ [.completed] } := by
  rw [exec, execClear, whenInitialized_of_initialized hw hi, complete, clearBody_state]; rfl

theorem exec_on_of_initialized :
    exec .on s =
      .next { s with
        controlBits := withDisplayOn s.cfg s.controlBits
        level :=
          levelsAfterByte s.cfg (displayControlByte s.cfg (withDisplayOn s.cfg s.controlBits)) .command s.level
        trace := s.trace ++
          specByte s.cfg (displayControlByte s.cfg (withDisplayOn s.cfg s.controlBits)) .command
        reports := s.reports ++ [.completed] } := by
  rw [exec, execOn, whenInitialized_of_initialized hw hi, complete, reissueDisplayControl, command_eq,
    emitAll_specByte]; rfl

theorem exec_off_of_initialized :
    exec .off s =
      .next { s with
        controlBits := withDisplayOff s.cfg s.controlBits
        level :=
          levelsAfterByte s.cfg (displayControlByte s.cfg (withDisplayOff s.cfg s.controlBits)) .command s.level
        trace := s.trace ++
          specByte s.cfg (displayControlByte s.cfg (withDisplayOff s.cfg s.controlBits)) .command
        reports := s.reports ++ [.completed] } := by
  rw [exec, execOff, whenInitialized_of_initialized hw hi, complete, reissueDisplayControl, command_eq,
    emitAll_specByte]; rfl

end Admitted

/-! ## The address byte -/

/-- What R11 (d) says of the base of the address byte. -/
theorem cmdSetDdramAddr_of_wf {c : Cfg} (h : c.wf = true) : c.cmdSetDdramAddr = 0x80 := by
  simp only [Cfg.wf, Cfg.ddramBaseIsTopBit, Bool.and_eq_true, beq_iff_eq] at h
  obtain ⟨⟨⟨-, hbase⟩, -⟩, -⟩ := h
  exact hbase

/-- The base is the top bit, so only the low seven bits of the operand are seen (R69, R102). -/
theorem setDdramAddrByte_toNat {c : Cfg} (h : c.wf = true) (a : Byte) :
    (setDdramAddrByte c a).toNat = 128 + a.toNat % 128 := by
  rw [setDdramAddrByte, cmdSetDdramAddr_of_wf h]
  revert a; decide

/-- The 8-bit sum of R53 and the unwrapped sum agree in their low seven bits. -/
theorem setDdramAddrByte_add_toNat {c : Cfg} (h : c.wf = true) (x offset : Byte) :
    (setDdramAddrByte c (x + offset)).toNat = 128 + (x.toNat + offset.toNat) % 128 := by
  rw [setDdramAddrByte_toNat h, BitVec.toNat_add]; omega

/-- The operand of R96, from the entry of the clamped row. -/
theorem ddramOperand_of_entry {s : State} {y offset : Byte}
    (h : s.rowOffsets[clampRow s.cfg s.lineCount y]? = some offset) (x : Byte) : ddramOperand s x y = x + offset := by
  rw [ddramOperand, State.rowOffset_of_some h]

/-- Everything an admitted `set_cursor` does, for a clamped row that is in the table. -/
theorem exec_setCursor_of_entry {s : State} {y offset : Byte} (hw : s.cfg.wf = true) (hi : s.initialized = true)
    (hu : usableRows s.cfg s.lineCount ≠ 0)
    (hrow : s.rowOffsets[clampRow s.cfg s.lineCount y]? = some offset) (x : Byte) :
    exec (.setCursor x y) s =
      .next { s with
        level := levelsAfterByte s.cfg (setDdramAddrByte s.cfg (x + offset)) .command s.level
        trace := s.trace ++ specByte s.cfg (setDdramAddrByte s.cfg (x + offset)) .command
        reports := s.reports ++ [.completed] } := by
  rw [exec_setCursor_of_initialized hw hi, whenRowsExist_of_rows hu, setCursorBody_eq, ddramOperand_of_entry hrow,
    emitAll_specByte]; rfl

/-- Everything an admitted `draw_char` does, for a clamped row that is in the table. -/
theorem exec_drawChar_of_entry {s : State} {y offset : Byte} (hw : s.cfg.wf = true) (hi : s.initialized = true)
    (hu : usableRows s.cfg s.lineCount ≠ 0)
    (hrow : s.rowOffsets[clampRow s.cfg s.lineCount y]? = some offset) (x c : Byte) :
    exec (.drawChar x y c) s =
      .next { s with
        level := levelsAfterByte s.cfg c .data s.level
        trace := s.trace ++ specByte s.cfg (setDdramAddrByte s.cfg (x + offset)) .command ++ specByte s.cfg c .data
        reports := s.reports ++ [.completed] } := by
  rw [exec_drawChar_of_initialized hw hi, whenRowsExist_of_rows hu, setCursorBody_eq, ddramOperand_of_entry hrow,
    emitAll_specByte, send_eq, emitAll_specByte, levelsAfterByte_again]; rfl

/-- Settles O21: the row R96 reads is the clamped row, and the base of the address byte is its top bit. -/
theorem setCursorSendsClampedAddress : Obligations.SetCursorSendsClampedAddress := by
  intro s x y
  refine ⟨fun _ => rfl, exec_operating_of_not_initialized rfl, fun hw hi hl => ?_,
    fun hw hi hu offset hrow => ?_⟩
  · rw [exec_setCursor_of_initialized hw hi, whenRowsExist_of_no_line hl]
  · have entry : s.rowOffsets[clampRow s.cfg s.lineCount y]? = some offset := by rw [clampRow_eq]; exact hrow
    exact ⟨exec_setCursor_of_entry hw hi hu entry x, setDdramAddrByte_add_toNat hw x offset⟩

/-- Settles O22: the body of `set_cursor`, then one data byte, which sets every level again. -/
theorem drawCharSendsAddressThenData : Obligations.DrawCharSendsAddressThenData := by
  intro s x y c
  refine ⟨fun _ => rfl, exec_operating_of_not_initialized rfl, fun hw hi hl => ?_,
    fun hw hi hu offset hrow => ?_⟩
  · rw [exec_drawChar_of_initialized hw hi, whenRowsExist_of_no_line hl]
  · have entry : s.rowOffsets[clampRow s.cfg s.lineCount y]? = some offset := by rw [clampRow_eq]; exact hrow
    exact exec_drawChar_of_entry hw hi hu entry x c

/-- Settles O23: the bytes of a string are those of its characters, and none for the empty string. -/
theorem drawStringSendsCharacters : Obligations.DrawStringSendsCharacters := by
  intro s cs
  refine ⟨fun hlen rest => decodeRequest_drawString ?_ rest, exec_operating_of_not_initialized rfl, fun hw hi => ?_⟩
  · rw [BitVec.toNat_ofNat, Nat.mod_eq_of_lt (by omega)]
  · refine ⟨exec_drawString_of_initialized hw hi cs, ?_⟩
    rintro rfl
    rw [exec_drawString_of_initialized hw hi]
    simp [levelsAfterString, specString]

/-- Settles O26: the request is one byte, and the state is that of an admitted `clear`. -/
theorem clearSendsAndWaits : Obligations.ClearSendsAndWaits := by
  intro s
  refine ⟨fun _ => rfl, exec_operating_of_not_initialized rfl, exec_clear_of_initialized, fun hspec => ?_⟩
  obtain ⟨hClear, -⟩ := commands_of_specValues hspec
  obtain ⟨-, -, -, -, hWait⟩ := stepWaits_of_specValues hspec
  exact ⟨hClear, hWait⟩

/-! ## The display bit -/

theorem withDisplayOn_display (c : Cfg) (bits : Byte) : withDisplayOn c bits &&& c.ctDisplayOn = c.ctDisplayOn := by
  ext k; simp +contextual [withDisplayOn]

theorem withDisplayOn_others (c : Cfg) (bits : Byte) :
    withDisplayOn c bits &&& ~~~c.ctDisplayOn = bits &&& ~~~c.ctDisplayOn := by
  ext k; simp [withDisplayOn, Bool.and_or_distrib_right]

theorem withDisplayOff_others (c : Cfg) (bits : Byte) :
    withDisplayOff c bits &&& ~~~c.ctDisplayOn = bits &&& ~~~c.ctDisplayOn := by
  rw [withDisplayOff, BitVec.and_assoc, BitVec.and_self]

/-- Settles O27: the request is one byte, and the state is that of an admitted `on`, whatever the bit was. -/
theorem onSetsDisplayBit : Obligations.OnSetsDisplayBit := fun _ =>
  ⟨fun _ => rfl, exec_operating_of_not_initialized rfl, exec_on_of_initialized⟩

/-- Settles O28: none of the three commands writes the flag that admits the next, and each keeps the other bits. -/
theorem offClearsDisplayBit : Obligations.OffClearsDisplayBit := by
  intro s
  refine ⟨fun _ => rfl, exec_operating_of_not_initialized rfl, exec_off_of_initialized, fun hw hi => ?_⟩
  refine ⟨_, _, _, exec_on_of_initialized hw hi, exec_off_of_initialized hw hi, exec_on_of_initialized hw hi, ?_, ?_⟩
  · exact withDisplayOn_display _ _
  · simp only [withDisplayOn_others, withDisplayOff_others]

end Sys2Proof.Machine
end

section
/-! R102, R104, R148: what the bus sees of an operating command: the byte of `set_cursor`, and the counts. -/

namespace Sys2Proof.Machine

/-! ## The row table on the bus -/

/-- One byte, with no wait of its own after it, in the log of R46. -/
theorem log_specByte (c : Cfg) (v : Byte) (m : Mode) (l : Lines Level) :
    logOf 0 (pulsesFrom c.rwPresent l (specByte c v m)) = [.byte v m none] := by
  have halves : v.extractLsb' 4 4 ++ v.extractLsb' 0 4 = v := by revert v; decide
  have mode : levelMode (modeLevel m) = m := by cases m <;> rfl
  have pulses := pulsesFrom_specByte c v m l []
  rw [List.append_nil] at pulses
  simp [pulses, logOf, byteEntries, Pulse.delay, halves, mode]

/-- An entry of the table of this hardware, against the unwrapped base and columns of R102. -/
theorem rowOffsetFor_toNat {c : Cfg} (h : c.HasSpecValues) (columns : Byte) {row : Nat} (hrow : row < 4) :
    (rowOffsetFor c columns row).toNat =
      ((if row % 2 = 0 then 0x00 else 0x40) + if 2 ≤ row then columns.toNat else 0) % 256 := by
  obtain ⟨-, hEven, hOdd⟩ := rowTable_of_specValues h
  have hcolumns : columns.toNat < 256 := columns.isLt
  match row, hrow with
  | 0, _ => simp [rowOffsetFor, hEven]
  | 1, _ => simp [rowOffsetFor, hOdd]
  | 2, _ => simp [rowOffsetFor, hEven, Nat.mod_eq_of_lt hcolumns]
  | 3, _ => simp [rowOffsetFor, hOdd, BitVec.toNat_add]

/-- Settles O30: the table's wrap at 256 and the byte's at 128 leave the sum modulo 128 as it is. -/
theorem addressByteIgnoresTableWidth : Obligations.AddressByteIgnoresTableWidth := by
  intro s x y columns hw hspec hi hl htable row sum
  obtain ⟨hmax, -, -⟩ := rowTable_of_specValues hspec
  have hu : usableRows s.cfg s.lineCount ≠ 0 := by
    rw [Ne, usableRows_eq_zero, hmax]; simpa using hl
  have clamped : clampRow s.cfg s.lineCount y = row := by rw [clampRow, topRow, usableRows, hmax]
  have hrow : row < 4 := by omega
  have entry : s.rowOffsets[clampRow s.cfg s.lineCount y]? = some (rowOffsetFor s.cfg columns row) := by
    rw [htable, clamped, rowOffsetsFor_getElem? s.cfg columns (hmax ▸ hrow)]
  have byte : setDdramAddrByte s.cfg (x + rowOffsetFor s.cfg columns row) = BitVec.ofNat 8 (128 + sum % 128) := by
    apply BitVec.eq_of_toNat_eq
    rw [setDdramAddrByte_add_toNat hw, rowOffsetFor_toNat hspec columns hrow, BitVec.toNat_ofNat]
    omega
  refine ⟨_, _, exec_setCursor_of_entry hw hi hu entry x, rfl, ?_⟩
  rw [log_specByte, byte]

/-! ## The counts of R104 -/

/-- The events, the transfers and the sum of the waits of what is emitted from lines at the levels `l`. -/
def traceSize (c : Cfg) (l : Lines Level) (es : List Event) : Nat × Nat × Nat :=
  (es.length, ((pulsesFrom c.rwPresent l es).map Pulse.content).length, totalWait es)

/-- For R10's values a byte adds its own size to that of what follows it. -/
theorem traceSize_specByte_append {c : Cfg} (h : c.HasSpecValues) (v : Byte) (m : Mode) (l : Lines Level)
    (es : List Event) :
    traceSize c l (specByte c v m ++ es) =
      (if c.rwPresent then 22 else 21, 2, 204) + traceSize c (levelsAfterByte c v m l) es := by
  obtain ⟨hSetup, hHigh, hSettle⟩ := pulseWaits_of_specValues h
  have waits : totalWait (specByte c v m) = 204 := by rw [totalWait_specByte, hSetup, hHigh, hSettle]; rfl
  simp only [traceSize, List.length_append, specByte_length, totalWait_append, waits, pulsesFrom_specByte,
    List.map_cons, List.length_cons, Prod.mk_add_mk, Prod.mk.injEq, true_and, and_true]
  omega

theorem traceSize_specByte {c : Cfg} (h : c.HasSpecValues) (v : Byte) (m : Mode) (l : Lines Level) :
    traceSize c l (specByte c v m) = (if c.rwPresent then 22 else 21, 2, 204) := by
  simpa [traceSize] using traceSize_specByte_append h v m l []

theorem traceSize_specString {c : Cfg} (h : c.HasSpecValues) (cs : List Byte) (l : Lines Level) :
    traceSize c l (specString c cs) =
      ((if c.rwPresent then 22 else 21) * cs.length, 2 * cs.length, 204 * cs.length) := by
  induction cs generalizing l with
  | nil => rfl
  | cons ch cs ih =>
    have tail := ih (levelsAfterByte c ch .data l)
    rw [specString] at tail ⊢
    rw [List.flatMap_cons, traceSize_specByte_append h, tail]
    simp only [Prod.mk_add_mk, List.length_cons, Nat.mul_add, Nat.mul_one, Nat.add_comm]

/-- Settles O31: the command was admitted, and its events are one byte, two bytes, a byte and a wait, or a string. -/
theorem operatingTraceSizes : Obligations.OperatingTraceSizes := by
  intro s t i hspec hi hop h
  have hw := wf_of_exec_operating_next hop h
  cases i with
  | setCursor x y =>
    rw [exec_setCursor_of_initialized hw hi] at h
    rw [whenRowsExist_next h, setCursorBody_eq]
    exact ⟨_, State.emitAll_trace _ _, traceSize_specByte hspec _ _ _⟩
  | drawChar x y c =>
    rw [exec_drawChar_of_initialized hw hi] at h
    rw [whenRowsExist_next h, setCursorBody_eq, send_eq, State.emitAll_cfg, ← State.emitAll_append]
    refine ⟨_, State.emitAll_trace _ _, (traceSize_specByte_append hspec _ _ _ _).trans ?_⟩
    rw [traceSize_specByte hspec]
    cases s.cfg.rwPresent <;> rfl
  | drawString cs =>
    cases (exec_drawString_of_initialized hw hi cs).symm.trans h
    exact ⟨_, rfl, traceSize_specString hspec cs s.level⟩
  | clear =>
    obtain ⟨-, -, -, -, hWait⟩ := stepWaits_of_specValues hspec
    cases (exec_clear_of_initialized hw hi).symm.trans h
    refine ⟨_, List.append_assoc _ _ _, (traceSize_specByte_append hspec _ _ _ _).trans ?_⟩
    simp [traceSize, Event.waitTime, hWait]
  | on =>
    cases (exec_on_of_initialized hw hi).symm.trans h
    exact ⟨_, rfl, traceSize_specByte hspec _ _ _⟩
  | off =>
    cases (exec_off_of_initialized hw hi).symm.trans h
    exact ⟨_, rfl, traceSize_specByte hspec _ _ _⟩
  | _ => cases hop

end Sys2Proof.Machine
end

section
/-! R105 to R110: how an instruction is admitted, said once for each family of instructions, with the fact that what it
then does never depends on the reports made before (R108). -/

namespace Sys2Proof.Machine

/-! ## Reports are never read -/

/-- The state with other reports on the error port. -/
def State.withReports (s : State) (before : List Report) : State := { s with reports := before }

section WithReports
variable (s : State) (before : List Report)
@[simp] theorem State.withReports_cfg : (s.withReports before).cfg = s.cfg := rfl
@[simp] theorem State.withReports_fsmState : (s.withReports before).fsmState = s.fsmState := rfl
@[simp] theorem State.withReports_initialized : (s.withReports before).initialized = s.initialized := rfl
@[simp] theorem State.withReports_lineCount : (s.withReports before).lineCount = s.lineCount := rfl
@[simp] theorem State.withReports_reports : (s.withReports before).reports = before := rfl
@[simp] theorem State.withReports_emitAll (es : List Event) :
    (s.withReports before).emitAll es = (s.emitAll es).withReports before := by
  simp only [State.emitAll_eq]; rfl
end WithReports

/-- An effect that neither reads the reports nor writes them. -/
def IgnoresReports (body : State → State) : Prop :=
  ∀ s before, body (s.withReports before) = (body s).withReports before

theorem IgnoresReports.keeps {body : State → State} (h : IgnoresReports body) (s : State) :
    (body s).reports = s.reports := by
  have same : body s = (body s).withReports s.reports := h s s.reports
  rw [same, State.withReports_reports]

/-! Each body of a request or an internal operation is register writes and an emission. -/

theorem writeNibble_withReports (v : Byte) : IgnoresReports (writeNibble v) := fun s before => by
  simp [writeNibble_eq]

theorem send_withReports (v : Byte) (m : Mode) : IgnoresReports (send v m) := fun s before => by
  simp [send_eq]

theorem command_withReports (v : Byte) : IgnoresReports (command v) := send_withReports v .command

theorem clearBody_withReports : IgnoresReports clearBody := fun s before => by
  simp [clearBody_eq]

theorem drawStringBody_withReports (cs : List Byte) : IgnoresReports (drawStringBody cs) := fun s before => by
  simp [drawStringBody_eq]

theorem setCursorBody_withReports (x y : Byte) : IgnoresReports (setCursorBody x y) :=
  fun _ _ => command_withReports _ _ _

theorem drawCharBody_withReports (x y c : Byte) : IgnoresReports fun s => send c .data (setCursorBody x y s) :=
  fun s before =>
    (congrArg (send c .data) (setCursorBody_withReports x y s before)).trans (send_withReports c .data _ before)

/-- `on` and `off`: the register is written first (R100, R101). -/
theorem displayBody_withReports (bits : Cfg → Byte → Byte) :
    IgnoresReports fun s => reissueDisplayControl { s with controlBits := bits s.cfg s.controlBits } :=
  fun s before =>
    command_withReports (displayControlByte s.cfg (bits s.cfg s.controlBits))
      { s with controlBits := bits s.cfg s.controlBits } before

theorem beginBody_withReports (columns lines : Byte) (charsize : Font) :
    IgnoresReports (beginBody columns lines charsize) := fun s before => by
  simp only [beginBody_eq, State.emitAll_eq, State.withReports]

theorem initBody_withReports :
    IgnoresReports fun s => beginBody s.cfg.initColumns s.cfg.initLines s.cfg.initCharsize s := fun s before => by
  simp only [State.withReports_cfg]
  exact beginBody_withReports s.cfg.initColumns s.cfg.initLines s.cfg.initCharsize s before

/-! ## Families of instructions -/

/-- The two commands that read the row table, so that R110 (b) can refuse them. -/
def readsRowTable (i : Instr) : Prop := (∃ x y, i = .setCursor x y) ∨ ∃ x y c, i = .drawChar x y c

/-- How `exec` admits each family of instructions, and the effect it admits. -/
inductive Admission (i : Instr) : Prop where
  | reserved (b : Byte) (family : i.isReserved = true) (meaning : exec i = raise (.illegalRequest b))
  | begins (body : State → State) (family : i.isBegin = true) (ignores : IgnoresReports body)
      (meaning : exec i = fun s => admitBegin s body)
  | rows (body : State → State) (family : i.isOperating = true) (reads : readsRowTable i) (ignores : IgnoresReports body)
      (meaning : exec i = fun s => whenInitialized s fun s => whenRowsExist s body)
  | operates (body : State → State) (family : i.isOperating = true) (reads : ¬ readsRowTable i)
      (ignores : IgnoresReports body) (meaning : exec i = fun s => whenInitialized s fun s => complete (body s))
  | internal (body : State → State) (family : i.isRequest = false) (ignores : IgnoresReports body)
      (meaning : exec i = fun s => internally s body)

/-- An internal operation whose effect takes its operand from the configuration. -/
theorem Admission.internalOfCfg {i : Instr} (effect : Cfg → State → State) (family : i.isRequest = false)
    (ignores : ∀ c, IgnoresReports (effect c)) (meaning : exec i = fun s => internally s (effect s.cfg)) : Admission i :=
  .internal (fun s => effect s.cfg s) family (fun s before => ignores s.cfg s before)
    (meaning.trans (by funext s; rw [internally, internally, underWfConfig, underWfConfig]))

/-- `init` admits the body of `begin` on the configured arguments (R86). -/
theorem exec_init_eq_admitBegin :
    exec .init = fun s => admitBegin s fun s =>
      beginBody s.cfg.initColumns s.cfg.initLines s.cfg.initCharsize s := by
  funext s
  simp only [exec, execInit, admitBegin, underWfConfig]

/-- Every instruction is admitted in one of the five ways. -/
theorem exec_admission (i : Instr) : Admission i := by
  cases i with
  | init => exact .begins _ rfl initBody_withReports exec_init_eq_admitBegin
  | begin columns lines charsize => exact .begins _ rfl (beginBody_withReports columns lines charsize) rfl
  | setCursor x y => exact .rows _ rfl (.inl ⟨x, y, rfl⟩) (setCursorBody_withReports x y) rfl
  | drawChar x y c => exact .rows _ rfl (.inr ⟨x, y, c, rfl⟩) (drawCharBody_withReports x y c) rfl
  | drawString cs => exact .operates _ rfl (by simp [readsRowTable]) (drawStringBody_withReports cs) rfl
  | clear => exact .operates _ rfl (by simp [readsRowTable]) clearBody_withReports rfl
  | on => exact .operates _ rfl (by simp [readsRowTable]) (displayBody_withReports withDisplayOn) rfl
  | off => exact .operates _ rfl (by simp [readsRowTable]) (displayBody_withReports withDisplayOff) rfl
  | reservedRequest b => exact .reserved b rfl rfl
  | writeNibble value => exact .internal _ rfl (writeNibble_withReports value) rfl
  | send value mode => exact .internal _ rfl (send_withReports value mode) rfl
  | command value => exact .internal _ rfl (command_withReports value) rfl
  | hs3 => exact .internalOfCfg (fun cfg => writeNibble cfg.hsNibbleA) rfl (fun _ => writeNibble_withReports _) rfl
  | hs2 => exact .internalOfCfg (fun cfg => writeNibble cfg.hsNibbleB) rfl (fun _ => writeNibble_withReports _) rfl
  | functionset w n f =>
    exact .internalOfCfg (fun cfg => command (functionSetByte cfg (functionFields cfg w n f))) rfl
      (fun _ => command_withReports _) rfl
  | displaycontrol d c b =>
    exact .internalOfCfg (fun cfg => command (displayControlByte cfg (controlFields cfg d c b))) rfl
      (fun _ => command_withReports _) rfl
  | cleardisplay => exact .internal _ rfl clearBody_withReports rfl
  | entrymodeset left shift =>
    exact .internalOfCfg (fun cfg => command (entryModeSetByte cfg (entryModeFields cfg left shift))) rfl
      (fun _ => command_withReports _) rfl
  | setddramaddr a =>
    exact .internalOfCfg (fun cfg => command (setDdramAddrByte cfg (a.zeroExtend 8))) rfl
      (fun _ => command_withReports _) rfl
  | datawrite c => exact .internal _ rfl (send_withReports c .data) rfl

/-! The families of R74 are disjoint. -/

theorem families_of_isReserved {i : Instr} (h : i.isReserved = true) : i.isBegin = false ∧ i.isOperating = false := by
  cases i with
  | reservedRequest b => exact ⟨rfl, rfl⟩
  | _ => cases h

theorem families_of_isBegin {i : Instr} (h : i.isBegin = true) : i.isOperating = false ∧ i.isReserved = false := by
  cases i with
  | init => exact ⟨rfl, rfl⟩
  | begin columns lines charsize => exact ⟨rfl, rfl⟩
  | _ => cases h

theorem isReserved_of_isOperating {i : Instr} (h : i.isOperating = true) : i.isReserved = false := by
  cases i with
  | reservedRequest b => cases h
  | _ => rfl

theorem families_of_isRequest_eq_false {i : Instr} (h : i.isRequest = false) :
    i.isBegin = false ∧ i.isOperating = false ∧ i.isReserved = false := by
  simpa [Instr.isRequest, and_assoc] using h

theorem not_readsRowTable {i : Instr} (h : i.isOperating = false) : ¬ readsRowTable i := by
  rintro (⟨x, y, rfl⟩ | ⟨x, y, c, rfl⟩) <;> cases h

end Sys2Proof.Machine
end

section
/-! R106, R107, R110, R113: the checks of a request, and which of them ends it. -/

namespace Sys2Proof.Machine

/-- `begin` and `init` share one admission (R87, R113). -/
theorem exec_begin_eq_admitBegin {i : Instr} (hi : i.isBegin = true) (s : State) :
    ∃ body, exec i s = admitBegin s body := by
  cases i with
  | init => exact ⟨_, rfl⟩
  | begin columns lines charsize => exact ⟨_, rfl⟩
  | _ => cases hi

/-- The pin that `InvalidPin` names is the first in R105's order that the table does not have. -/
theorem firstInvalidPin_of_append {c : Cfg} {valid others : List Nat} {pin : Nat}
    (hlist : c.pinList = valid ++ pin :: others) (hvalid : ∀ p ∈ valid, p < c.pinTableSize)
    (hpin : c.pinTableSize ≤ pin) : firstInvalidPin c = some pin := by
  rw [firstInvalidPin, List.find?_eq_some_iff_append]
  exact ⟨by simpa using hpin, valid, others, hlist, fun p hp => by simpa using hvalid p hp⟩

/-- Settles O17: the `SecondBegin` check passes, and the search for an invalid pin stops at `pin`. -/
theorem invalidPinRaised : Obligations.InvalidPinRaised := by
  intro s i valid pin others hw hi hf hlist hvalid hpin
  obtain ⟨body, hbody⟩ := exec_begin_eq_admitBegin hi s
  have first : firstInvalidPin s.cfg = some pin := firstInvalidPin_of_append hlist hvalid hpin
  simp only [hbody, admitBegin, underWfConfig, hw, hf, first, if_true, raise, State.report]

/-- Settles O16: the `fsm_state` check comes before that of the pins. -/
theorem secondBeginRefused : Obligations.SecondBeginRefused := by
  intro s i hw hi hf
  obtain ⟨body, hbody⟩ := exec_begin_eq_admitBegin hi s
  rw [hbody, admitBegin, underWfConfig, if_pos hw, if_neg hf]

/-- With an invalid pin no instruction completes that initializes the engine. -/
theorem exec_keeps_uninitialized {i : Instr} {s t : State} (hpins : ∃ p ∈ s.cfg.pinList, s.cfg.pinTableSize ≤ p)
    (hi : s.initialized = false) (h : exec i s = .next t) : t.initialized = false ∧ t.cfg = s.cfg := by
  rcases exec_next_cases h with ⟨-, r, -, rfl⟩ | ⟨-, -, -, hnone, -⟩ | ⟨-, -, hinit, -⟩ | ⟨-, -, es, -, rfl⟩
  · exact ⟨hi, rfl⟩
  · obtain ⟨p, hp, hle⟩ := hpins
    have := (firstInvalidPin_eq_none s.cfg).mp hnone p hp
    omega
  · rw [hi] at hinit; cases hinit
  · exact ⟨by simpa using hi, by simp⟩

/-- Settles O18: only a completed `begin` initializes, and its pins are all valid. -/
theorem invalidPinsNeverInitialize : Obligations.InvalidPinsNeverInitialize := by
  intro s t hpins hi hstep
  refine step_keeps (P := fun u => u.initialized = false ∧ u.cfg = s.cfg) ?_ ?_ (fun _ _ hu => hu) hstep ⟨hi, rfl⟩
  · intro u u' hfetch hu
    rw [hfetch]; exact hu
  · rintro i u v hexec ⟨hu, hcfg⟩
    obtain ⟨hv, hcfg'⟩ := exec_keeps_uninitialized (hcfg ▸ hpins) hu hexec
    exact ⟨hv, hcfg'.trans hcfg⟩

/-- Settles O19: the check of R106, which under R24 is that of `fsm_state`. -/
theorem notInitializedRaised : Obligations.NotInitializedRaised := by
  intro s i hw hop
  refine ⟨exec_operating_of_not_initialized hop hw, fun hinv hf => ?_⟩
  have hi : s.initialized = false := Bool.eq_false_iff.mpr fun h => hf (hinv.ready.mp h)
  exact exec_operating_of_not_initialized hop hw hi

/-- Settles O20: with `line_count = 0` the clamp of R96 leaves no row. -/
theorem emptyRowRangeRefused : Obligations.EmptyRowRangeRefused := by
  intro s x y c hw hi hl
  constructor
  · rw [exec_setCursor_of_initialized hw hi, whenRowsExist_of_no_line hl]
  · rw [exec_drawChar_of_initialized hw hi, whenRowsExist_of_no_line hl]

/-! ## Refusals -/

section Refused
variable (s : State) (r : Refusal)

theorem admitBegin_refused_iff (body : State → State) :
    admitBegin s body = .refused r ↔
      (r = .illFormedConfig ∧ s.cfg.wf = false) ∨
        (r = .secondBegin ∧ s.cfg.wf = true ∧ s.fsmState ≠ .uninitialized) := by
  rcases admitBegin_cases s body with ⟨hw, h⟩ | ⟨hw, hf, h⟩ | ⟨pin, hw, hf, -, h⟩ | ⟨hw, hf, -, h⟩
  · simp [h, hw, @eq_comm _ r]
  · simp [h, hw, hf, @eq_comm _ r]
  · simp [h, hw, hf]
  · simp [h, hw, hf]

theorem whenInitialized_refused_iff (body : State → Host.Outcome State Fault Refusal) :
    whenInitialized s body = .refused r ↔
      (r = .illFormedConfig ∧ s.cfg.wf = false) ∨
        (s.cfg.wf = true ∧ s.initialized = true ∧ body s = .refused r) := by
  rcases whenInitialized_cases s body with ⟨hw, h⟩ | ⟨hw, hi, h⟩ | ⟨hw, hi, h⟩
  · simp [h, hw, @eq_comm _ r]
  · simp [h, hw, hi]
  · simp [h, hw, hi]

theorem whenRowsExist_refused_iff (body : State → State) :
    whenRowsExist s body = .refused r ↔ r = .emptyRowRange ∧ (s.cfg.maxRows = 0 ∨ s.lineCount = 0) := by
  rw [← usableRows_eq_zero]
  rcases whenRowsExist_cases s body with ⟨hu, h⟩ | ⟨hu, h⟩
  · simp [h, hu, @eq_comm _ r]
  · simp [h, hu]

theorem internally_refused_iff (body : State → State) :
    internally s body = .refused r ↔ r = .illFormedConfig ∧ s.cfg.wf = false := by
  rcases internally_cases s body with ⟨hw, h⟩ | ⟨hw, h⟩
  · simp [h, hw, @eq_comm _ r]
  · simp [h, hw]

end Refused

/-- Settles O44: each admission refuses for its own reasons, and the families are disjoint. -/
theorem refusalsExactlyWhen : Obligations.RefusalsExactlyWhen := by
  intro s i r
  change _ ↔ _ ∨ _ ∨ (_ ∧ _ ∧ _ ∧ _ ∧ readsRowTable i)
  cases exec_admission i with
  | reserved b family meaning =>
    obtain ⟨hbegin, hop⟩ := families_of_isReserved family
    simp [meaning, raise, family, hbegin, not_readsRowTable hop]
  | begins body family ignores meaning =>
    obtain ⟨hop, hreserved⟩ := families_of_isBegin family
    simp [meaning, admitBegin_refused_iff, family, hreserved, not_readsRowTable hop]
  | rows body family reads ignores meaning =>
    simp [meaning, whenInitialized_refused_iff, whenRowsExist_refused_iff, isBegin_of_isOperating family,
      isReserved_of_isOperating family, reads, and_left_comm]
  | operates body family reads ignores meaning =>
    simp [meaning, whenInitialized_refused_iff, complete, isBegin_of_isOperating family,
      isReserved_of_isOperating family, reads]
  | internal body family ignores meaning =>
    obtain ⟨hbegin, hop, hreserved⟩ := families_of_isRequest_eq_false family
    simp [meaning, internally_refused_iff, hbegin, hreserved, not_readsRowTable hop]

end Sys2Proof.Machine
end

section
/-! R105, R108: the reports of the error port: one per request, with its cause, and never read. -/

namespace Sys2Proof.Machine

/-! ## One report per request -/

/-- The cause of a report, by its code (R105). -/
def HasCause (s : State) (i : Instr) (r : Report) : Prop :=
  (r.code = 0 ∧ r = .completed) ∨ (r.code = 1 ∧ i.isBegin = true ∧ firstInvalidPin s.cfg ≠ none) ∨
    (r.code = 2 ∧ i.isOperating = true ∧ s.initialized = false) ∨ (r.code = 3 ∧ i.isReserved = true)

/-- From `s` to `t` the request `i` made one report, and its cause held. -/
def ReportsOnce (i : Instr) (s t : State) : Prop := ∃ r, t.reports = s.reports ++ [r] ∧ HasCause s i r

theorem IgnoresReports.reportsOnce {body : State → State} (h : IgnoresReports body) (i : Instr) (s : State) :
    ReportsOnce i s ((body s).report .completed) :=
  ⟨.completed, by rw [State.report_reports, h.keeps], .inl ⟨rfl, rfl⟩⟩

theorem whenInitialized_reportsOnce {s t : State} {i : Instr} {body : State → Host.Outcome State Fault Refusal}
    (hop : i.isOperating = true) (hbody : body s = .next t → ReportsOnce i s t)
    (h : whenInitialized s body = .next t) : ReportsOnce i s t := by
  rcases whenInitialized_cases s body with ⟨-, h'⟩ | ⟨-, hi, h'⟩ | ⟨-, -, h'⟩
  · cases h'.symm.trans h
  · cases h'.symm.trans h
    exact ⟨.notInitialized, rfl, .inr (.inr (.inl ⟨rfl, hop, hi⟩))⟩
  · exact hbody (h'.symm.trans h)

/-- A request that ends adds one report, for a cause of its family. -/
theorem exec_reportsOnce {s t : State} {i : Instr} (hreq : i.isRequest = true) (h : exec i s = .next t) :
    ReportsOnce i s t := by
  cases exec_admission i with
  | reserved b family meaning =>
    rw [meaning] at h; cases h
    exact ⟨.illegalRequest b, rfl, .inr (.inr (.inr ⟨rfl, family⟩))⟩
  | begins body family ignores meaning =>
    rw [meaning] at h
    rcases admitBegin_cases s body with ⟨-, h'⟩ | ⟨-, -, h'⟩ | ⟨pin, -, -, hpin, h'⟩ | ⟨-, -, -, h'⟩ <;>
      cases h'.symm.trans h
    · exact ⟨.invalidPin pin, rfl, .inr (.inl ⟨rfl, family, by simp [hpin]⟩)⟩
    · exact ignores.reportsOnce i s
  | rows body family reads ignores meaning =>
    rw [meaning] at h
    exact whenInitialized_reportsOnce family (fun hb => by rw [whenRowsExist_next hb]; exact ignores.reportsOnce i s) h
  | operates body family reads ignores meaning =>
    rw [meaning] at h
    exact whenInitialized_reportsOnce family (fun hb => by cases hb; exact ignores.reportsOnce i s) h
  | internal body family ignores meaning => rw [hreq] at family; cases family

/-- Settles O43: an internal operation only emits. -/
theorem oneReportPerRequest : Obligations.OneReportPerRequest := by
  intro s t i h
  refine ⟨fun hreq => exec_reportsOnce hreq h, fun hreq => ?_⟩
  obtain ⟨-, es, -, rfl⟩ := exec_internal_next hreq h
  exact State.emitAll_reports s es

/-! ## Reports made before -/

/-- The outcome with the reports made since `s` put after `before`. -/
def reportsOnto (s : State) (before : List Report) :
    Host.Outcome State Fault Refusal → Host.Outcome State Fault Refusal
  | .next t => .next (t.withReports (before ++ t.reports.drop s.reports.length))
  | .fault f => .fault f
  | .refused r => .refused r

/-- A meaning that only ever adds to the reports, and the same whatever they were. -/
def AppendsReports (meaning : State → Host.Outcome State Fault Refusal) : Prop :=
  ∀ s before, meaning (s.withReports before) = reportsOnto s before (meaning s)

theorem AppendsReports.raise (error : Report) : AppendsReports (raise error) := fun s before => by
  simp [Machine.raise, reportsOnto, State.withReports, State.report]

theorem AppendsReports.complete {body : State → State} (h : IgnoresReports body) :
    AppendsReports fun s => complete (body s) := fun s before => by
  change Host.Outcome.next ((body (s.withReports before)).report .completed) = _
  rw [h s before]
  simp [Machine.complete, reportsOnto, State.withReports, State.report, h.keeps]

theorem AppendsReports.next {body : State → State} (h : IgnoresReports body) :
    AppendsReports fun s => .next (body s) := fun s before => by
  simp [reportsOnto, h s before, h.keeps]

theorem AppendsReports.refuse (r : Refusal) : AppendsReports fun _ => .refused r := fun _ _ => rfl

/-- A choice that does not look at the reports. -/
theorem AppendsReports.ite {p : State → Prop} [DecidablePred p] {f g : State → Host.Outcome State Fault Refusal}
    (hp : ∀ s before, p (s.withReports before) ↔ p s) (hf : AppendsReports f) (hg : AppendsReports g) :
    AppendsReports fun s => if p s then f s else g s := fun s before => by
  simp only [hp, hf s before, hg s before]
  split <;> rfl

theorem AppendsReports.underWfConfig {body : State → Host.Outcome State Fault Refusal} (h : AppendsReports body) :
    AppendsReports fun s => underWfConfig s body :=
  .ite (fun _ _ => Iff.rfl) h (.refuse _)

theorem AppendsReports.whenInitialized {body : State → Host.Outcome State Fault Refusal} (h : AppendsReports body) :
    AppendsReports fun s => whenInitialized s body :=
  .underWfConfig (.ite (fun _ _ => Iff.rfl) h (.raise _))

theorem AppendsReports.whenRowsExist {body : State → State} (h : IgnoresReports body) :
    AppendsReports fun s => whenRowsExist s body :=
  .ite (fun _ _ => Iff.rfl) (.refuse _) (.complete h)

theorem AppendsReports.internally {body : State → State} (h : IgnoresReports body) :
    AppendsReports fun s => internally s body :=
  .underWfConfig (.next h)

theorem AppendsReports.admitBegin {body : State → State} (h : IgnoresReports body) :
    AppendsReports fun s => admitBegin s body := by
  refine .underWfConfig (.ite (fun _ _ => Iff.rfl) (fun s before => ?_) (.refuse _))
  rw [State.withReports_cfg]
  cases firstInvalidPin s.cfg with
  | none => exact AppendsReports.complete h s before
  | some pin => exact AppendsReports.raise (.invalidPin pin) s before

theorem exec_appendsReports (i : Instr) : AppendsReports (exec i) := by
  cases exec_admission i with
  | reserved b family meaning => exact meaning ▸ .raise (.illegalRequest b)
  | begins body family ignores meaning => exact meaning ▸ .admitBegin ignores
  | rows body family reads ignores meaning => exact meaning ▸ .whenInitialized (.whenRowsExist ignores)
  | operates body family reads ignores meaning => exact meaning ▸ .whenInitialized (.complete ignores)
  | internal body family ignores meaning => exact meaning ▸ .internally ignores

/-- An instruction that adds the report of an error did nothing else. -/
theorem raised_of_error_report {s t : State} {i : Instr} {r : Report} (h : exec i s = .next t)
    (hr : t.reports = s.reports ++ [r]) (hne : r ≠ .completed) : t = s.report r := by
  rcases exec_next_cases h with ⟨-, r', -, rfl⟩ | ⟨-, -, -, -, columns, lines, charsize, rfl⟩ |
    ⟨-, -, -, bits, es, -, -, rfl⟩ | ⟨-, -, es, -, rfl⟩
  · obtain rfl : r' = r := by simpa using hr
    rfl
  · rw [State.report_reports, (beginBody_withReports columns lines charsize).keeps] at hr
    exact absurd (by simpa using hr.symm) hne
  · exact absurd (by simpa using hr.symm) hne
  · simp at hr

/-- Settles O42: an error is raised before every effect, by the decoder too, and no admission reads the reports. -/
theorem errorsArePrecise : Obligations.ErrorsArePrecise := by
  refine ⟨fun s t i r => raised_of_error_report, fun s b rest => step_of_illegal, fun s i before => ?_⟩
  refine (exec_appendsReports i s before).trans ?_
  cases exec i s <;> rfl

end Sys2Proof.Machine
end

section
/-! R107, R121 to R123: the pins that a request names to the GPIO collaborator. -/

namespace Sys2Proof.Machine

/-- The pin of a line that exists is in use. -/
theorem pin_mem_pinList {c : Cfg} {l : Line} (h : c.hasLine l = true) : c.pins.get l ∈ c.pinList := by
  cases l with
  | rw =>
    have hrw : c.rwPresent = true := by simpa [Cfg.hasLine] using h
    simp [Cfg.pinList, Lines.get, hrw]
  | _ => simp [Cfg.pinList, Lines.get]

/-- An event of the engine names the pin of an existing line, or none. -/
theorem call_pin_mem_pinList {c : Cfg} {e : Event} {p : Nat} (he : engineEvent c e = true)
    (hp : (e.call c).pin? = some p) : p ∈ c.pinList := by
  cases e with
  | dir l m =>
    obtain ⟨-, hl⟩ : _ ∧ c.hasLine l = true := by simpa [engineEvent] using he
    cases hp; exact pin_mem_pinList hl
  | drive l a =>
    obtain ⟨-, hl⟩ : _ ∧ c.hasLine l = true := by simpa [engineEvent] using he
    cases hp; exact pin_mem_pinList hl
  | wait n => cases hp

/-- A request emits nothing or runs under valid pins: `begin` checks them, and R34 keeps them for what follows it. -/
theorem pins_valid_of_request {s t : State} {i : Instr} (hinv : s.Inv) (hreq : i.isRequest = true)
    (h : exec i s = .next t) : t.trace = s.trace ∨ ∀ p ∈ s.cfg.pinList, p < s.cfg.pinTableSize := by
  rcases exec_next_cases h with ⟨-, r, -, rfl⟩ | ⟨-, -, -, hnone, -⟩ | ⟨-, -, hinit, -⟩ | ⟨hi, -⟩
  · exact .inl rfl
  · exact .inr ((firstInvalidPin_eq_none s.cfg).mp hnone)
  · obtain ⟨-, valid⟩ := (hinv.whenReady hinit).configured
    exact .inr valid
  · rw [hreq] at hi; cases hi

/-- Settles O46: every event is one of the engine's, so its pin is in use, and the pins in use are valid. -/
theorem requestsResolveValidPins : Obligations.RequestsResolveValidPins := by
  intro s t i es hinv hreq hexec htrace e he p hp
  obtain ⟨-, es', htrace', events⟩ := exec_continues hexec
  obtain rfl : es = es' := List.append_cancel_left (htrace.symm.trans htrace')
  rcases pins_valid_of_request hinv hreq hexec with same | valid
  · obtain rfl : es = [] := by simpa [same] using htrace
    cases he
  · exact if_pos (valid p (call_pin_mem_pinList (List.all_eq_true.mp events e he) hp))

end Sys2Proof.Machine
end

section
/-! R126 to R128: the delay algorithm on the samples of the free-running counter. -/

namespace Sys2Proof.Machine

/-- Settles O47: the target is the quotient of a division by 1000, rounded up. -/
theorem delayTargetIsCeiling : Obligations.DelayTargetIsCeiling := by
  intro ticksPerMs us ticks
  unfold delayTarget; omega

/-- Two samples tell the ticks between them up to whole periods: the wrap test sees one wrap and misses the others. -/
theorem ticksBetween_counterAt {ticksPerMs a b : Nat} (hpos : 0 < ticksPerMs) (hab : a ≤ b) :
    ticksBetween ticksPerMs (counterAt ticksPerMs a) (counterAt ticksPerMs b) = (b - a) % ticksPerMs := by
  obtain ⟨passed, rfl⟩ := Nat.exists_eq_add_of_le hab
  have hstart : a % ticksPerMs < ticksPerMs := Nat.mod_lt a hpos
  have hpassed : passed % ticksPerMs < ticksPerMs := Nat.mod_lt passed hpos
  rw [Nat.add_sub_cancel_left, ticksBetween, counterAt, counterAt, Nat.add_mod_eq_ite]
  split_ifs <;> omega

theorem ticksBetween_counterAt_le {ticksPerMs a b : Nat} (hpos : 0 < ticksPerMs) (hab : a ≤ b) :
    ticksBetween ticksPerMs (counterAt ticksPerMs a) (counterAt ticksPerMs b) ≤ b - a := by
  rw [ticksBetween_counterAt hpos hab]; exact Nat.mod_le _ _

theorem ticksBetween_counterAt_of_lt {ticksPerMs a b : Nat} (hab : a ≤ b) (hlt : b < a + ticksPerMs) :
    ticksBetween ticksPerMs (counterAt ticksPerMs a) (counterAt ticksPerMs b) = b - a := by
  rw [ticksBetween_counterAt (by omega) hab, Nat.mod_eq_of_lt (by omega)]

/-- The loop still waits only when the target is not reached, and then it goes on with the next sample. -/
theorem delayLoop_cons_of_lt {ticksPerMs target prev elapsed : Nat} (h : elapsed < target) (now : Nat)
    (samples : List Nat) :
    delayLoop ticksPerMs target prev elapsed (now :: samples) =
      delayLoop ticksPerMs target now (elapsed + ticksBetween ticksPerMs prev now) samples :=
  if_neg (by omega)

theorem lt_of_delayLoop_eq_none {ticksPerMs target prev elapsed : Nat} {samples : List Nat}
    (h : delayLoop ticksPerMs target prev elapsed samples = none) : elapsed < target := by
  by_contra hge
  cases samples <;> simp [delayLoop, Nat.le_of_not_lt hge] at h

theorem delayLoop_nil_eq_some {ticksPerMs target prev elapsed total : Nat}
    (h : delayLoop ticksPerMs target prev elapsed [] = some total) : target ≤ elapsed ∧ total = elapsed := by
  by_cases hle : target ≤ elapsed
  · exact ⟨hle, by simpa [delayLoop, hle, eq_comm] using h⟩
  · simp [delayLoop, hle] at h

/-- A loop that ends with the sample at `now` has reached its target, has counted no tick that did not pass, and has
counted them all when no wrap was missed. -/
theorem delayLoop_counts {ticksPerMs target first elapsed now total : Nat} {between : List Nat} (hpos : 0 < ticksPerMs)
    (hsorted : (first :: (between ++ [now])).Pairwise (· ≤ ·))
    (hwaits : delayLoop ticksPerMs target (counterAt ticksPerMs first) elapsed
      (between.map (counterAt ticksPerMs)) = none)
    (hends : delayLoop ticksPerMs target (counterAt ticksPerMs first) elapsed
      ((between ++ [now]).map (counterAt ticksPerMs)) = some total) :
    target ≤ total ∧ total ≤ elapsed + (now - first) ∧
      ((first :: (between ++ [now])).IsChain (fun a b => b < a + ticksPerMs) → total = elapsed + (now - first)) := by
  induction between generalizing first elapsed with
  | nil =>
    have hle : first ≤ now := by simpa using hsorted
    have hlt := lt_of_delayLoop_eq_none hwaits
    simp only [List.nil_append, List.map_cons, List.map_nil, delayLoop_cons_of_lt hlt] at hends
    obtain ⟨hreached, rfl⟩ := delayLoop_nil_eq_some hends
    refine ⟨hreached, Nat.add_le_add_left (ticksBetween_counterAt_le hpos hle) _, fun hchain => ?_⟩
    rw [ticksBetween_counterAt_of_lt hle (by simpa using hchain)]
  | cons next between ih =>
    have hlt := lt_of_delayLoop_eq_none hwaits
    obtain ⟨hfirst, hrest⟩ := List.pairwise_cons.mp hsorted
    have hle : first ≤ next := hfirst next (by simp)
    have hle' : next ≤ now := (List.pairwise_cons.mp hrest).1 now (by simp)
    simp only [List.cons_append, List.map_cons, delayLoop_cons_of_lt hlt] at hwaits hends
    obtain ⟨hreached, hbound, hexact⟩ := ih hrest hwaits hends
    have step := ticksBetween_counterAt_le hpos hle
    refine ⟨hreached, by omega, fun hchain => ?_⟩
    obtain ⟨hnext, hchain'⟩ := List.isChain_cons_cons.mp hchain
    rw [hexact hchain', ticksBetween_counterAt_of_lt hle hnext]
    omega

/-- Settles O48: the ticks counted reach the target, and no more are counted than passed. -/
theorem delayNeverEndsEarly : Obligations.DelayNeverEndsEarly := by
  intro ticksPerMs us first now elapsed between hpos hsorted hwaits hends
  obtain ⟨hreached, hbound, hexact⟩ := delayLoop_counts hpos hsorted hwaits hends
  rw [Nat.zero_add] at hbound hexact
  exact ⟨(delayTargetIsCeiling _ _ _).mp (hreached.trans hbound), hbound, hexact⟩

end Sys2Proof.Machine
end

section
/-! R119, R136: the idle engine. -/

namespace Sys2Proof.Machine

/-- Settles O7: nothing is fetched. -/
theorem idleStepChangesNothing : Obligations.IdleStepChangesNothing := by
  intro s hops hd
  simp only [step, fetch, hops, hd, runFetched]

end Sys2Proof.Machine
end

section
/-! R142: lines are stable in every pulse. Event lists that are stable and leave no pulse open can be joined, and every
operation appends such lists. -/

namespace Sys2Proof.Machine

theorem stableFrom_drive_of_ne {l : Line} (hl : l ≠ .e) (high : Bool) (a : Level) (es : List Event) :
    stableFrom high (.drive l a :: es) = (!high && stableFrom high es) := by
  cases l with
  | e => exact absurd rfl hl
  | _ => rfl

/-- What follows a list of events is read from the level the list leaves E at. -/
theorem stableFrom_append (es es' : List Event) :
    stableFrom false (es ++ es') = (stableFrom false es && stableFrom (lastLevel .e es = some .high) es') := by
  induction es using List.reverseRecOn generalizing es' with
  | nil => rfl
  | append_singleton es e ih =>
    rw [List.append_assoc, List.singleton_append, ih, ih [e], Bool.and_assoc]
    congr 1
    cases e with
    | dir l d => simp [stableFrom]
    | wait n => simp [stableFrom]
    | drive l a =>
      by_cases hl : l = .e
      · subst hl; simp [stableFrom]
      · simp [stableFrom_drive_of_ne hl, stableFrom, hl]

/-- The last `Drive` on a line stands in the second list, or else in the first. -/
theorem lastLevel_append (l : Line) (es es' : List Event) :
    lastLevel l (es ++ es') = (lastLevel l es').or (lastLevel l es) := by
  induction es' using List.reverseRecOn with
  | nil => rw [List.append_nil]; rfl
  | append_singleton es' e ih =>
    rw [← List.append_assoc]
    cases e with
    | dir l' d => rw [lastLevel_append_dir, lastLevel_append_dir, ih]
    | wait n => rw [lastLevel_append_wait, lastLevel_append_wait, ih]
    | drive l' a =>
      rw [lastLevel_append_drive, lastLevel_append_drive]
      split_ifs
      · rfl
      · exact ih

/-- R142 of a list of events that starts with E not High. -/
def ClosesPulses (es : List Event) : Prop := stableFrom false es = true ∧ lastLevel .e es ≠ some .high

theorem State.pulsesClosed_iff (s : State) : s.PulsesClosed ↔ ClosesPulses s.trace := Iff.rfl

theorem ClosesPulses.append {es es' : List Event} (h : ClosesPulses es) (h' : ClosesPulses es') :
    ClosesPulses (es ++ es') := by
  obtain ⟨hstable, hlow⟩ := h
  obtain ⟨hstable', hlow'⟩ := h'
  refine ⟨by simp [stableFrom_append, hstable, hlow, hstable'], ?_⟩
  rw [lastLevel_append]
  cases hlast : lastLevel .e es' with
  | none => exact hlow
  | some a => rwa [hlast] at hlow'

theorem closesPulses_nil : ClosesPulses [] := ⟨rfl, nofun⟩

theorem closesPulses_dir (l : Line) (d : Direction) : ClosesPulses [.dir l d] := ⟨rfl, nofun⟩

/-- E is driven too, when `l` is E. -/
theorem closesPulses_drive_low (l : Line) : ClosesPulses [.drive l .low] := by
  cases l <;> exact ⟨rfl, nofun⟩

theorem closesPulses_wait (n : Micros) : ClosesPulses [.wait n] := ⟨rfl, nofun⟩

/-- A nibble sets the data lines before its pulse. -/
theorem closesPulses_specNib (c : Cfg) (b3 b2 b1 b0 : Bool) : ClosesPulses (specNib c b3 b2 b1 b0) := ⟨rfl, nofun⟩

/-- The events on RW, which only an existing line has. -/
theorem closesPulses_rw (c : Cfg) {e : Event} (h : ClosesPulses [e]) :
    ClosesPulses (if c.rwPresent then [e] else []) := by
  split
  · exact h
  · exact closesPulses_nil

/-- A byte transfer sets RS and RW before its two nibbles. -/
theorem closesPulses_specByte (c : Cfg) (v : Byte) (m : Mode) : ClosesPulses (specByte c v m) :=
  have rs (a : Level) : ClosesPulses [.drive .rs a] := ⟨rfl, nofun⟩
  (((rs _).append (closesPulses_rw c (closesPulses_drive_low .rw))).append (closesPulses_specNib c _ _ _ _)).append
    (closesPulses_specNib c _ _ _ _)

theorem Traffic.closesPulses {c : Cfg} {es : List Event} (h : Traffic c es) : ClosesPulses es := by
  induction h with
  | nothing => exact closesPulses_nil
  | nibble v => exact closesPulses_specNib c _ _ _ _
  | byte v m => exact closesPulses_specByte c v m
  | clearWait => exact closesPulses_wait _
  | both _ _ ih ih' => exact ih.append ih'

/-- `begin` drives E Low before its first pulse, and goes on with nibbles, bytes and waits. -/
theorem closesPulses_specBegin (c : Cfg) (bits : Byte) : ClosesPulses (specBegin c bits) := by
  have outputs : ClosesPulses (([.dir .rs .output] : List Event) ++
      (if c.rwPresent then [.dir .rw .output] else [] : List Event) ++
      ([.dir .e .output, .dir .d0 .output, .dir .d1 .output, .dir .d2 .output, .dir .d3 .output] : List Event)) :=
    ((closesPulses_dir .rs .output).append (closesPulses_rw c (closesPulses_dir .rw .output))).append ⟨rfl, nofun⟩
  have controls : ClosesPulses (([.drive .rs .low] : List Event) ++
      (if c.rwPresent then [.drive .rw .low] else [] : List Event) ++
      ([.drive .e .low, .wait c.tPowerOn] : List Event)) :=
    ((closesPulses_drive_low .rs).append (closesPulses_rw c (closesPulses_drive_low .rw))).append ⟨rfl, nofun⟩
  have nibble (v : Byte) : ClosesPulses (specNibOf c v) := closesPulses_specNib c _ _ _ _
  have handshake (n : Micros) : ClosesPulses (specNibOf c c.hsNibbleA ++ [.wait n]) :=
    (nibble _).append (closesPulses_wait n)
  have byte (v : Byte) : ClosesPulses (specByte c v .command) := closesPulses_specByte c v .command
  exact outputs.append controls |>.append (handshake c.tHs1) |>.append (handshake c.tHs2)
    |>.append (handshake c.tHs3) |>.append (nibble c.hsNibbleB) |>.append (byte _) |>.append (byte _)
    |>.append ((byte _).append (closesPulses_wait _)) |>.append (byte _)

/-- The property reads the trace only. -/
theorem State.PulsesClosed.of_trace {s t : State} {es : List Event} (h : s.PulsesClosed)
    (ht : t.trace = s.trace ++ es) (hes : ClosesPulses es) : t.PulsesClosed := by
  rw [State.pulsesClosed_iff, ht]; exact ClosesPulses.append h hes

/-- Every instruction appends nothing, the events of `begin` or traffic. -/
theorem exec_keeps_pulses {i : Instr} {s t : State} (he : exec i s = .next t) (h : s.PulsesClosed) :
    t.PulsesClosed := by
  rcases exec_next_cases he with ⟨-, r, -, rfl⟩ | ⟨-, -, -, -, columns, lines, charsize, rfl⟩ |
    ⟨-, -, -, bits, es, -, htr, rfl⟩ | ⟨-, -, es, htr, rfl⟩
  · exact h
  · rw [beginBody_eq]
    exact h.of_trace (by rw [State.report_trace, State.emitAll_trace]) (closesPulses_specBegin s.cfg _)
  · exact h.of_trace (by simp) htr.closesPulses
  · exact h.of_trace (by simp) htr.closesPulses

/-- Settles O40: a fetch and a report leave the trace alone, and an instruction appends events that close
their pulses. -/
theorem pulsesStayStable : Obligations.PulsesStayStable := fun _ _ h hstep =>
  step_keeps (P := State.PulsesClosed) (fun _ _ hf h => by rw [hf]; exact h) (fun _ _ _ => exec_keeps_pulses)
    (fun _ _ h => h) hstep h

end Sys2Proof.Machine
end

section
/-! R73 to R76: a request and its bytes. Decoding what the encoder writes gives the instruction back, and what the decoder
reads as an instruction is that instruction's encoding. -/

namespace Sys2Proof

/-- Settles O1: closed words. -/
theorem writtenWordsDecode : Obligations.WrittenWordsDecode := by
  unfold Obligations.WrittenWordsDecode; decide

/-! ## From the encoder to the decoder -/

/-- A length byte holds the length of every string it can be written for (R76). -/
theorem lengthByte_toNat {cs : List Byte} (h : cs.length ≤ 255) : (BitVec.ofNat 8 cs.length).toNat = cs.length := by
  rw [BitVec.toNat_ofNat, Nat.mod_eq_of_lt (by omega)]

/-- Decoding an encoded request leaves the bytes after it. -/
theorem decodeRequest_encode {i : Instr} {bytes : List Byte} (hwf : i.wf = true) (he : encode i = .request bytes)
    (rest : List Byte) : decodeRequest (bytes ++ rest) = .instr i rest := by
  cases i with
  | init => cases he; rfl
  | begin columns lines charsize => cases he; cases charsize <;> rfl
  | setCursor x y => cases he; rfl
  | drawChar x y c => cases he; rfl
  | drawString cs =>
    cases he
    exact decodeRequest_drawString (lengthByte_toNat (of_decide_eq_true hwf)).symm rest
  | clear => cases he; rfl
  | on => cases he; rfl
  | off => cases he; rfl
  | reservedRequest b =>
    cases he
    exact decodeRequest_reserved (of_decide_eq_true hwf) rest
  | _ => cases he

/-! ## From the decoder to the encoder -/

/-- `stream` is a well-formed encoding of `i`, then `rest`. -/
def StartsWithRequest (stream : List Byte) (i : Instr) (rest : List Byte) : Prop :=
  i.wf = true ∧ ∃ bytes, encode i = .request bytes ∧ stream = bytes ++ rest

section Read
variable {bs rest : List Byte} {i : Instr}

/-- A `charsize` byte that is accepted is the one the encoder writes for its font. -/
theorem startsWithRequest_of_decodeBegin (h : decodeBegin bs = .instr i rest) :
    StartsWithRequest (0x01 :: bs) i rest := by
  unfold decodeBegin at h
  split at h
  · split at h
    · next h0 => subst h0; cases h; exact ⟨rfl, _, rfl, rfl⟩
    · split at h
      · next h1 => subst h1; cases h; exact ⟨rfl, _, rfl, rfl⟩
      · cases h
  · cases h

theorem startsWithRequest_of_decodeSetCursor (h : decodeSetCursor bs = .instr i rest) :
    StartsWithRequest (0x02 :: bs) i rest := by
  unfold decodeSetCursor at h
  split at h
  · cases h; exact ⟨rfl, _, rfl, rfl⟩
  · cases h

theorem startsWithRequest_of_decodeDrawChar (h : decodeDrawChar bs = .instr i rest) :
    StartsWithRequest (0x03 :: bs) i rest := by
  unfold decodeDrawChar at h
  split at h
  · cases h; exact ⟨rfl, _, rfl, rfl⟩
  · cases h

/-- The characters read are as many as the length byte says, so the encoder writes that byte again. -/
theorem startsWithRequest_of_decodeDrawString (h : decodeDrawString bs = .instr i rest) :
    StartsWithRequest (0x04 :: bs) i rest := by
  unfold decodeDrawString at h
  split at h
  · next n cs =>
    split at h
    · next hn =>
      cases h
      have length : (cs.take n.toNat).length = n.toNat := List.length_take_of_le hn
      have wf : n.toNat ≤ 255 := Nat.le_of_lt_succ n.isLt
      refine ⟨decide_eq_true (length.le.trans wf), _, rfl, ?_⟩
      rw [length, BitVec.ofNat_toNat, BitVec.setWidth_eq]
      simp
    · cases h
  · cases h

end Read

/-- The opcode bytes of R74, and the reserved ones (R75 (a)). -/
theorem opcode_cases (b : Byte) : 8 ≤ b.toNat ∨ b = 0x00 ∨ b = 0x01 ∨ b = 0x02 ∨ b = 0x03 ∨ b = 0x04 ∨ b = 0x05 ∨
    b = 0x06 ∨ b = 0x07 := by
  revert b; decide

/-- An instruction read from a stream is at its front, encoded. -/
theorem startsWithRequest_of_decodeRequest {stream rest : List Byte} {i : Instr}
    (h : decodeRequest stream = .instr i rest) : StartsWithRequest stream i rest := by
  cases stream with
  | nil => cases h
  | cons b bs =>
    rcases opcode_cases b with hb | rfl | rfl | rfl | rfl | rfl | rfl | rfl | rfl
    · rw [decodeRequest_reserved hb] at h
      cases h; exact ⟨decide_eq_true hb, _, rfl, rfl⟩
    · cases h; exact ⟨rfl, _, rfl, rfl⟩
    · exact startsWithRequest_of_decodeBegin h
    · exact startsWithRequest_of_decodeSetCursor h
    · exact startsWithRequest_of_decodeDrawChar h
    · exact startsWithRequest_of_decodeDrawString h
    · cases h; exact ⟨rfl, _, rfl, rfl⟩
    · cases h; exact ⟨rfl, _, rfl, rfl⟩
    · cases h; exact ⟨rfl, _, rfl, rfl⟩

/-- Settles O2: one direction by the instructions, the other by the opcode byte. -/
theorem requestDecodeEncode : Obligations.RequestDecodeEncode :=
  ⟨fun _ _ rest hwf he => decodeRequest_encode hwf he rest, fun _ _ _ => startsWithRequest_of_decodeRequest⟩

end Sys2Proof
end

section
/-! R61 to R72: bus words and micro-operations. The encoder and the decoder are inverse, so every instruction can be
placed for the next step. -/

namespace Sys2Proof

theorem encode_of_decodeBus5 {w : BitVec 5} {i : Instr} (h : decodeBus5 w = some i) : encode i = .internal (.bus5 w) := by
  have all : ∀ w, ∀ i ∈ decodeBus5 w, encode i = .internal (.bus5 w) := by decide
  exact all w i h

/-- The match and mask of every row leave exactly the bits of its fields free (R65 to R70). -/
theorem encode_of_decodeBus9 {w : BitVec 9} {i : Instr} (h : decodeBus9 w = some i) : encode i = .internal (.bus9 w) := by
  have all : ∀ w, ∀ i ∈ decodeBus9 w, encode i = .internal (.bus9 w) := by decide
  exact all w i h

theorem encode_of_decodeInternal {op : InternalOp} {i : Instr} (h : decodeInternal op = some i) :
    encode i = .internal op := by
  cases op with
  | bus5 w => exact encode_of_decodeBus5 h
  | bus9 w => exact encode_of_decodeBus9 h
  | writeNibble value => cases h; rfl
  | send value mode => cases h; rfl
  | command value => cases h; rfl

/-- Every field value of a bus word is read back from it. -/
theorem decodeInternal_of_encode {op : InternalOp} {i : Instr} (h : encode i = .internal op) :
    decodeInternal op = some i := by
  cases i with
  | writeNibble value => cases h; rfl
  | send value mode => cases h; rfl
  | command value => cases h; rfl
  | hs3 => cases h; rfl
  | hs2 => cases h; rfl
  | functionset w n f => cases h; revert w n f; decide
  | displaycontrol d c b => cases h; revert d c b; decide
  | cleardisplay => cases h; rfl
  | entrymodeset left shift => cases h; revert left shift; decide
  | setddramaddr a => cases h; revert a; decide
  | datawrite c => cases h; revert c; decide
  | _ => cases h

/-- Settles O3: a word that decodes to nothing is written for no instruction. -/
theorem internalDecodeEncode : Obligations.InternalDecodeEncode := fun _ _ =>
  ⟨decodeInternal_of_encode, encode_of_decodeInternal⟩

namespace Machine

/-- One encoded request is its own front request. -/
theorem frontRequest_of_encode {i : Instr} {bytes : List Byte} (hwf : i.wf = true) (he : encode i = .request bytes) :
    frontRequest bytes = bytes := by
  have alone : decodeRequest bytes = .instr i [] := by simpa using decodeRequest_encode hwf he []
  simp only [frontRequest, alone, List.length_nil, Nat.sub_zero, List.take_length]

/-- Settles O8: the step takes a request off the port again, or an internal operation off the internal input, and leaves
the state as it was before placing. -/
theorem placedInstructionRunsNext : Obligations.PlacedInstructionRunsNext := by
  intro s i hwf hops
  cases he : encode i with
  | request bytes =>
    rw [placeNext, frontRequest_of_encode hwf he, step_of_instr rfl (decodeRequest_encode hwf he s.requests), ← hops]
  | internal op => rw [placeNext, step_of_internal rfl (decodeInternal_of_encode he)]

end Machine

end Sys2Proof
end

section
/-! R98, S4: the bus log of a string, and strings drawn one after another. -/

namespace Sys2Proof.Machine

theorem specString_append (c : Cfg) (a b : List Byte) : specString c (a ++ b) = specString c a ++ specString c b :=
  List.flatMap_append

/-- The levels a string leaves are those its second part leaves after its first. -/
theorem levelsAfterString_append (c : Cfg) (a b : List Byte) (l : Lines Level) :
    levelsAfterString c (a ++ b) l = levelsAfterString c b (levelsAfterString c a l) := by
  simp only [← levelsAfter_specString, specString_append, levelsAfter_append]

/-- A byte that no wait follows is one entry of the log, before those of what follows it (R46). -/
theorem log_specByte_append {es : List Event} (h : leadingWaits es = []) (c : Cfg) (v : Byte) (m : Mode)
    (l : Lines Level) :
    logOf 0 (pulsesFrom c.rwPresent l (specByte c v m ++ es)) =
      .byte v m none :: logOf 0 (pulsesFrom c.rwPresent (levelsAfterByte c v m l) es) := by
  have alone := log_specByte c v m l
  rw [← List.append_nil (specByte c v m), pulsesFrom_specByte, leadingWaits_nil] at alone
  rw [pulsesFrom_specByte, h]
  exact congrArg (· ++ logOf 0 (pulsesFrom c.rwPresent (levelsAfterByte c v m l) es)) alone

/-- A string starts with no wait, so no character has a wait of its own after it (R98 (b)). -/
theorem leadingWaits_specString (c : Cfg) (cs : List Byte) : leadingWaits (specString c cs) = [] := by
  cases cs with
  | nil => rfl
  | cons ch cs => exact leadingWaits_specByte c ch .data (specString c cs)

/-- The log of a string is one data byte for each character. -/
theorem log_specString (c : Cfg) (cs : List Byte) (l : Lines Level) :
    logOf 0 (pulsesFrom c.rwPresent l (specString c cs)) = cs.map fun ch => .byte ch .data none := by
  induction cs generalizing l with
  | nil => rfl
  | cons ch cs ih => exact (log_specByte_append (leadingWaits_specString c cs) c ch .data l).trans (congrArg _ (ih _))

/-- Settles O24: the string was admitted. -/
theorem drawStringBytesInOrder : Obligations.DrawStringBytesInOrder := fun s cs hw hi =>
  ⟨_, _, exec_drawString_of_initialized hw hi cs, rfl, log_specString s.cfg cs s.level⟩

/-- Settles O25: all three strings are admitted, and their bytes are those of `a`, then those of `b`. -/
theorem drawStringConcatenates : Obligations.DrawStringConcatenates := by
  intro s a b hw hi
  refine ⟨_, _, _, exec_drawString_of_initialized hw hi (a ++ b), exec_drawString_of_initialized hw hi a,
    exec_drawString_of_initialized ?_ ?_ b, ?_⟩
  · exact hw
  · exact hi
  · simp only [levelsAfterString_append, specString_append, List.append_assoc]

end Sys2Proof.Machine
end

section
/-! R96, S3, C2: rows past the last one. `set_cursor` sees its row only through the clamp. -/

namespace Sys2Proof.Machine

/-- Rows that clamp to the same row give the same `set_cursor`, whatever it answers. -/
theorem exec_setCursor_of_clampRow_eq {s : State} {y y' : Byte}
    (h : clampRow s.cfg s.lineCount y = clampRow s.cfg s.lineCount y') (x : Byte) :
    exec (.setCursor x y) s = exec (.setCursor x y') s := by
  simp only [exec, execSetCursor, whenInitialized, underWfConfig, whenRowsExist, setCursorBody, ddramOperand, h]

/-- A row at or past the last row in range clamps to it. -/
theorem clampRow_of_topRow_le {c : Cfg} {lineCount y : Byte} (h : topRow c lineCount ≤ y.toNat) :
    clampRow c lineCount y = topRow c lineCount := Nat.min_eq_right h

/-- Rows at or past the last row in range all give the same `set_cursor`. -/
theorem exec_setCursor_of_topRow_le {s : State} {y y' : Byte} (h : topRow s.cfg s.lineCount ≤ y.toNat)
    (h' : topRow s.cfg s.lineCount ≤ y'.toNat) (x : Byte) :
    exec (.setCursor x y) s = exec (.setCursor x y') s :=
  exec_setCursor_of_clampRow_eq ((clampRow_of_topRow_le h).trans (clampRow_of_topRow_le h').symm) x

/-- Settles O29: in both clauses both rows are at or past the last row in range. -/
theorem rowsClampToLastRow : Obligations.RowsClampToLastRow := by
  refine fun s x y => ⟨fun hpos hmax hy => ?_, fun hpos hmax hy => ?_⟩
  · have top : topRow s.cfg s.lineCount = s.lineCount.toNat - 1 := by rw [topRow, usableRows, Nat.min_eq_right hmax]
    have last : (s.lineCount - 1).toNat = s.lineCount.toNat - 1 := BitVec.toNat_sub_of_le hpos
    exact exec_setCursor_of_topRow_le (by omega) (by omega) x
  · have top : topRow s.cfg s.lineCount = s.cfg.maxRows - 1 := by rw [topRow, usableRows, Nat.min_eq_left hmax]
    have last : (BitVec.ofNat 8 (s.cfg.maxRows - 1)).toNat = s.cfg.maxRows - 1 := by
      have := s.lineCount.isLt
      rw [BitVec.toNat_ofNat, Nat.mod_eq_of_lt (by omega)]
    exact exec_setCursor_of_topRow_le (by omega) (by omega) x

end Sys2Proof.Machine
end
